-- ==== Sys2Proof/Word.lean ====
section
/-! DEFINITION. The two bit vectors of the block: a byte (one device register, one operand lane, one
address) and a 32-bit word (one command, one RESULT). Bit 0 is the least significant bit (R10). -/

namespace Sys2Proof

/-- A byte: 8 bits (R10). A device register holds one (R55), an address on the bus is one (R8). -/
abbrev Byte := BitVec 8

/-- A command word (R47) or the RESULT of a response (R60): 32 bits. -/
abbrev Word := BitVec 32

end Sys2Proof
end

