-- ==== Sys2Proof/Config.lean ====
section
/-! DEFINITION. The parameters of the block: the constants of R6, R7 and R8, and the OPEN parameters of
R9, which the model holds as plain data (`Params`) so that every statement quantifies over them. -/

namespace Sys2Proof.Config

/-- TC_BYTES (R6). -/
abbrev tcBytes : Nat := 3
/-- TC_WORD_BITS (R6): width of W24. -/
abbrev tcWordBits : Nat := 24
/-- TC_DISCARD_BITS (R6): low bits of W24 dropped by the right shift. -/
abbrev tcDiscardBits : Nat := 5
/-- TC_FIELD_BITS (R6): width of the two's-complement field F19. -/
abbrev tcFieldBits : Nat := 19
/-- TC_FRAC_BITS (R6): F19 counts units of 2^-7 °C. -/
abbrev tcFracBits : Nat := 7

/-- CJ_BYTES (R7). -/
abbrev cjBytes : Nat := 2
/-- CJ_WORD_BITS (R7): width of W16. -/
abbrev cjWordBits : Nat := 16
/-- CJ_DISCARD_BITS (R7, as 90_conflicts.md C2 resolves it). -/
abbrev cjDiscardBits : Nat := 2
/-- CJ_FIELD_BITS (R7, C2): width of the two's-complement field F14. -/
abbrev cjFieldBits : Nat := 14
/-- CJ_FIELD_FRAC_BITS (R7): F14 counts units of 2^-6 °C. -/
abbrev cjFieldFracBits : Nat := 6
/-- CJ_WORD_FRAC_BITS (R7): the result counts units of 2^-8 °C. -/
abbrev cjWordFracBits : Nat := 8

/-- REG_DATA_BITS (R8). -/
abbrev regDataBits : Nat := 8
/-- REG_ADDR_BITS (R8). -/
abbrev regAddrBits : Nat := 8
/-- REG_ADDR_OBSERVED_MIN (R8): an observation, not a bound that the block enforces (R32). -/
abbrev regAddrObservedMin : Byte := 0x00
/-- REG_ADDR_OBSERVED_MAX (R8): likewise. -/
abbrev regAddrObservedMax : Byte := 0x0F

/-- TC_READ_ORDER (R9): the six permutations of (LO, MID, HI). -/
inductive TcOrder where
  | loMidHi
  | loHiMid
  | midLoHi
  | midHiLo
  | hiLoMid
  | hiMidLo
deriving DecidableEq, Repr

/-- CJ_READ_ORDER (R9): the two permutations of (LO, HI). -/
inductive CjOrder where
  | loHi
  | hiLo
deriving DecidableEq, Repr

/-- The seven OPEN parameters (R9). They are fixed before the block is reset and do not change while it
runs (R105). -/
structure Params where
  addrTcHi : Byte
  addrTcMid : Byte
  addrTcLo : Byte
  addrCjHi : Byte
  addrCjLo : Byte
  tcReadOrder : TcOrder
  cjReadOrder : CjOrder
deriving DecidableEq, Repr

/-- The default column of R9. The addresses are general knowledge of the spec's author
(93_implementation_defined.md G1), the orders decision D10: no statement rests on them but those that
name them. -/
def defaults : Params where
  addrTcHi := 0x0C
  addrTcMid := 0x0D
  addrTcLo := 0x0E
  addrCjHi := 0x0A
  addrCjLo := 0x0B
  tcReadOrder := .loMidHi
  cjReadOrder := .loHi

end Sys2Proof.Config
end

