-- ==== Sys2Proof/Syntax.lean ====
section
/-! DEFINITION. The TCDEC command set, revision 1 (R1, R49): one constructor per row of the opcode
table, with the operands of its format (R48) in the order of the assembler syntax (R62). -/

namespace Sys2Proof

/-- The six commands (R49). Nothing else is a command: there is no NOP, no hint, no fence, no system
command, no return from a trap (R43, R44, R52, R97). -/
inductive Instr where
  /-- RDREG addr (R74): one bus read of `addr`. -/
  | rdreg (addr : Byte)
  /-- WRREG addr, data (R75): one bus write of `data` to `addr`. -/
  | wrreg (addr data : Byte)
  /-- DECTC b0, b1, b2 (R65): decode the thermocouple bytes low, mid, high. -/
  | dectc (low mid high : Byte)
  /-- DECCJ msb, lsb (R66): decode the cold-junction bytes high, low. -/
  | deccj (high low : Byte)
  /-- RDTC (R80): read the three thermocouple registers and decode them. -/
  | rdtc
  /-- RDCJ (R81): read the two cold-junction registers and decode them. -/
  | rdcj
deriving DecidableEq, Repr

/-- The five formats of a command word: which lanes carry an operand (R48). -/
inductive Format where
  /-- ADDR in B1. -/
  | a
  /-- ADDR in B1, DATA in B0. -/
  | ad
  /-- HIGH in B2, MID in B1, LOW in B0. -/
  | t
  /-- HIGH in B1, LOW in B0. -/
  | c
  /-- No operand. -/
  | n
deriving DecidableEq, Repr

/-- A row of the opcode map (R49): a word w selects it when (w & mask) = pattern. -/
structure Row where
  mnemonic : String
  format : Format
  pattern : Word
  mask : Word
deriving DecidableEq, Repr

/-- Why a word is no command. Both reasons raise the same IllegalCommand (R51, R87): the reason is the
model's own name for the two cases of R51 and reaches no response. -/
inductive DecodeError where
  /-- Opcode 0x00 or 0x07 to 0xFF (R51). -/
  | unknownOpcode
  /-- Opcode 0x01 to 0x06 with a non-zero bit in a lane that its format marks 0 (R50). -/
  | reservedLane
deriving DecidableEq, Repr

/-- A line of assembler (R62): a mnemonic and its byte operands in the order of the syntax. Blanks,
hexadecimal spelling and comments are text and carry no meaning; they are not represented. -/
structure AsmLine where
  mnemonic : String
  operands : List Byte
deriving DecidableEq, Repr

end Sys2Proof
end

