-- ==== Sys2Proof/WellFormed.lean ====
section
/-! DEFINITION. What is well formed: every command (the operand types already say all that the spec
asks), and a set of OPEN parameters whose addresses are pairwise distinct within each group (R9). -/

namespace Sys2Proof

/-- Every 8-bit operand of every command is legal: the address (R78), the data of a write (R75), the bytes
of the decoders, which are total (R64, 90_conflicts.md C7). No operand value is reserved, so this check
refuses nothing. -/
def Instr.wellFormed : Instr → Bool
  | .rdreg _ => true
  | .wrreg _ _ => true
  | .dectc _ _ _ => true
  | .deccj _ _ => true
  | .rdtc => true
  | .rdcj => true

/-- The addresses are pairwise distinct within the thermocouple group and within the cold-junction group;
nothing else is required of them (R9), not even that they be consecutive or observed (R80 e). -/
def Config.Params.wellFormed (p : Config.Params) : Bool :=
  p.addrTcHi != p.addrTcMid && p.addrTcHi != p.addrTcLo && p.addrTcMid != p.addrTcLo
    && p.addrCjHi != p.addrCjLo

end Sys2Proof
end

