-- ==== Sys2Proof/Decode.lean ====
section
/-! DEFINITION. The command word: its lanes (R47), the opcode map (R49), the decoder (R54), total on all
2^32 words and rejecting by name, the encoder (R48, R62), and the assembler form (R62). A command is one
32-bit value on the host port and is never stored in a memory, so no byte order arises (R19, R29, R53). -/

namespace Sys2Proof

/-- OPC = CMD[31:24] (R47). -/
def opcodeOf (w : Word) : Byte := w.extractLsb' 24 8

/-- B2 = CMD[23:16] (R47). -/
def laneB2 (w : Word) : Byte := w.extractLsb' 16 8

/-- B1 = CMD[15:8] (R47). -/
def laneB1 (w : Word) : Byte := w.extractLsb' 8 8

/-- B0 = CMD[7:0] (R47). -/
def laneB0 (w : Word) : Byte := w.extractLsb' 0 8

/-- A word of an opcode and three lanes (R47). -/
def packLanes (opc b2 b1 b0 : Byte) : Word := opc ++ b2 ++ b1 ++ b0

/-- The RDREG row of R49. -/
def rowRdreg : Row := ⟨"RDREG", .a, 0x01000000, 0xFFFF00FF⟩

/-- The WRREG row of R49. -/
def rowWrreg : Row := ⟨"WRREG", .ad, 0x02000000, 0xFFFF0000⟩

/-- The DECTC row of R49. -/
def rowDectc : Row := ⟨"DECTC", .t, 0x03000000, 0xFF000000⟩

/-- The DECCJ row of R49. -/
def rowDeccj : Row := ⟨"DECCJ", .c, 0x04000000, 0xFFFF0000⟩

/-- The RDTC row of R49. -/
def rowRdtc : Row := ⟨"RDTC", .n, 0x05000000, 0xFFFFFFFF⟩

/-- The RDCJ row of R49. -/
def rowRdcj : Row := ⟨"RDCJ", .n, 0x06000000, 0xFFFFFFFF⟩

/-- The opcode map (R49), in the order of the table. -/
def opcodeTable : List Row := [rowRdreg, rowWrreg, rowDectc, rowDeccj, rowRdtc, rowRdcj]

/-- A word w selects a row when (w & mask) = pattern (R49). -/
def Row.selects (r : Row) (w : Word) : Bool := (w &&& r.mask) == r.pattern

/-- The row of R49 that a command belongs to. -/
def Instr.row : Instr → Row
  | .rdreg _ => rowRdreg
  | .wrreg _ _ => rowWrreg
  | .dectc _ _ _ => rowDectc
  | .deccj _ _ => rowDeccj
  | .rdtc => rowRdtc
  | .rdcj => rowRdcj

/-- Why a word that selects no row is illegal (R50, R51). -/
def rejection (w : Word) : DecodeError :=
  if 0x01 ≤ (opcodeOf w).toNat ∧ (opcodeOf w).toNat ≤ 0x06 then .reservedLane else .unknownOpcode

/-- The decode procedure (R54): find the row that the word selects, extract the operands by the row's
format (R48); where no row is selected, the word is illegal (R51). -/
def decode (w : Word) : Except DecodeError Instr :=
  if rowRdreg.selects w then .ok (.rdreg (laneB1 w))
  else if rowWrreg.selects w then .ok (.wrreg (laneB1 w) (laneB0 w))
  else if rowDectc.selects w then .ok (.dectc (laneB0 w) (laneB1 w) (laneB2 w))
  else if rowDeccj.selects w then .ok (.deccj (laneB1 w) (laneB0 w))
  else if rowRdtc.selects w then .ok .rdtc
  else if rowRdcj.selects w then .ok .rdcj
  else .error (rejection w)

/-- The word of a command: its opcode, its operands in the lanes of its format, zero in every reserved
lane (R48, R49). -/
def encode : Instr → Word
  | .rdreg addr => packLanes 0x01 0x00 addr 0x00
  | .wrreg addr data => packLanes 0x02 0x00 addr data
  | .dectc low mid high => packLanes 0x03 high mid low
  | .deccj high low => packLanes 0x04 0x00 high low
  | .rdtc => packLanes 0x05 0x00 0x00 0x00
  | .rdcj => packLanes 0x06 0x00 0x00 0x00

/-- The assembler form of a command (R62). -/
def Instr.toAsm : Instr → AsmLine
  | .rdreg addr => ⟨"RDREG", [addr]⟩
  | .wrreg addr data => ⟨"WRREG", [addr, data]⟩
  | .dectc low mid high => ⟨"DECTC", [low, mid, high]⟩
  | .deccj high low => ⟨"DECCJ", [high, low]⟩
  | .rdtc => ⟨"RDTC", []⟩
  | .rdcj => ⟨"RDCJ", []⟩

/-- The command that an assembler line spells, if any (R62). There are no pseudo-instructions (R63). -/
def Instr.ofAsm (l : AsmLine) : Option Instr :=
  match l.operands with
  | [] => if l.mnemonic == "RDTC" then some .rdtc
          else if l.mnemonic == "RDCJ" then some .rdcj else none
  | [x] => if l.mnemonic == "RDREG" then some (.rdreg x) else none
  | [x, y] => if l.mnemonic == "WRREG" then some (.wrreg x y)
              else if l.mnemonic == "DECCJ" then some (.deccj x y) else none
  | [x, y, z] => if l.mnemonic == "DECTC" then some (.dectc x y z) else none
  | _ => none

/-- The command word whose low `nbits` bits are those of `w` and whose other bits are 0. Every command is
one 32-bit word (R53), so bit k of the opcode table is bit k of the word. -/
def tableWord (nbits w : Nat) : Word := BitVec.ofNat 32 (w % 2 ^ nbits)

/-- What the decoder reads from a word given as the opcode table numbers its bits. -/
def decodeTableWord (nbits w : Nat) : Option Instr :=
  match decode (tableWord nbits w) with
  | .ok i => some i
  | .error _ => none

end Sys2Proof
end

