-- ==== Sys2Proof/Machine/State.lean ====
section
/-! DEFINITION. The state of the machine as plain data: the one thing the block itself holds, a command in
flight with its operation-local temporaries (R23, R24), beside it the inputs that R26 calls parameters of
the step (the OPEN parameters, what the host presents, what the transport answers) and the two outputs of
the block (the bus trace of R41, the responses of R15). There is no register, no program counter, no flag,
no mode, no memory and no hidden state (R17 to R22, R25, R29): none is held. -/

namespace Sys2Proof.Machine

/-- A transport-error value e (R14, R86): opaque to the block, which only hands it on. The token tells
different values apart; no operation of the block reads it (93_implementation_defined.md U12). -/
structure TransportError where
  token : Nat
deriving DecidableEq, Repr

/-- What the transport does next (R14, R30). The list of these in `State` is the environment's side of
every bus transaction, in the order in which the block issues them. -/
inductive Answer where
  /-- The outstanding call returns Ok; `data` is the byte of a BusRead. The Ok of a BusWrite carries no
  data (R14), so a write does not look at it. -/
  | ok (data : Byte)
  /-- The outstanding call returns Err(e). -/
  | err (e : TransportError)
  /-- The outstanding call does not return yet: the block stays busy for this step (R24, R110). -/
  | later
deriving DecidableEq, Repr

/-- The answer of a BusRead as a bus event shows it (R14). -/
inductive ReadAnswer where
  | ok (data : Byte)
  | err (e : TransportError)
deriving DecidableEq, Repr

/-- The answer of a BusWrite as a bus event shows it (R14). -/
inductive WriteAnswer where
  | ok
  | err (e : TransportError)
deriving DecidableEq, Repr

/-- One event of the bus trace (R41): Rd(addr, answer) or Wr(addr, data, answer). -/
inductive BusEvent where
  | rd (addr : Byte) (answer : ReadAnswer)
  | wr (addr data : Byte) (answer : WriteAnswer)
deriving DecidableEq, Repr

/-- The operation-local temporaries by name (R23): t of RDREG, t_lo, t_mid, t_hi of the readings. -/
inductive Temp where
  | t
  | lo
  | mid
  | hi
deriving DecidableEq, Repr

/-- The temporaries of the command in flight. They are created unwritten (R23), and an unwritten one holds
no value: that `none` is the spec's own state, not a missing reset value. -/
structure Temps where
  t : Option Byte := none
  lo : Option Byte := none
  mid : Option Byte := none
  hi : Option Byte := none
deriving DecidableEq, Repr

/-- One bus transaction of a command (R14, R37): a BusRead whose data goes to a temporary, or a
BusWrite. -/
inductive Txn where
  | read (dst : Temp) (addr : Byte)
  | write (addr data : Byte)
deriving DecidableEq, Repr

/-- The command in flight while the block is busy (R24). -/
structure Flight where
  /-- The accepted command. -/
  cmd : Instr
  /-- The bytes it has read so far (R23). -/
  temps : Temps
  /-- The transaction that is issued and not answered (R38, R110); it is in no trace yet (DESIGN CHOICE, log
  entry 17). -/
  outstanding : Txn
  /-- The transactions it has still to issue, in order (R41 a, b). -/
  rest : List Txn
deriving DecidableEq, Repr

/-- A response (R15): exactly one for every accepted command. Only OK has a RESULT (R60). -/
inductive Response where
  | ok (result : Word)
  | transportError (e : TransportError)
  | illegalCmd
deriving DecidableEq, Repr

/-- The packed response (R60): STATUS, RESULT where it holds a value, TERR where it is present. -/
structure PackedResponse where
  status : BitVec 2
  result : Option Word
  terr : Option TransportError
deriving DecidableEq, Repr

/-- The two exceptions that the block raises, and no others (R85). -/
inductive Exn where
  /-- A bus call of the command answered Err(e). -/
  | transportError (e : TransportError)
  /-- The presented word matches no row of R49. -/
  | illegalCommand
deriving DecidableEq, Repr

/-- What the host does on the host port. `early` says whether the host keeps to R111: with `false` it holds
the event back until the block is idle, with `true` it drives the port at once, busy or not. -/
inductive HostEvent where
  /-- Present a command word (R47, R111). -/
  | command (w : Word) (early : Bool)
  /-- The reset event (R102). -/
  | reset (early : Bool)
deriving DecidableEq, Repr

/-- The whole machine. -/
structure State where
  /-- The OPEN parameters (R9): fixed before reset, written by no step (R105). -/
  config : Config.Params
  /-- Idle (`none`) or busy with the command in flight (R24): all that the block itself holds. -/
  inflight : Option Flight
  /-- What the host will do, in order (R19, R26, R111): an input. -/
  host : List HostEvent
  /-- What the transport will do, in the order the transactions are issued (R26, R30): an input. When the
  list is empty the transport does not return (R110). -/
  answers : List Answer
  /-- The bus trace so far, oldest event first (R41): an output. It holds the answered transactions; one that
  is issued and not answered stands in `Flight.outstanding` (DESIGN CHOICE, log entry 17). -/
  trace : List BusEvent
  /-- The responses delivered so far, oldest first (R15): an output. -/
  responses : List Response
deriving DecidableEq, Repr

/-- Why the machine stops. Neither reason is raised by an exec on a state that a run reaches. -/
inductive Fault where
  /-- Raised by `transact` when a command in flight comes to its result with a temporary that no read has
  written: such a temporary holds no value and the rules never read one (R23). No flight that a command
  began is of this kind (`Safety.Inv`); only a state written out by hand is. Safe: the machine stops. -/
  | unwrittenTemporary
  /-- Raised by `unpackResponse`, on the HOST's side of the link, when the packed response is one that the
  block never produces, such as STATUS 3 (R60, 93_implementation_defined.md U9). No step raises it.
  Safe: the host gets no response from it. -/
  | brokenLink
deriving DecidableEq, Repr

/-- What the model gives no meaning to. -/
inductive Refusal where
  /-- Raised by an arm of exec whose instruction has no meaning yet; no arm is left so. Safe. -/
  | notModelled (mnemonic : String)
  /-- Raised by every meaning and by step when a command is presented while the block is busy: it has no
  meaning in the spec (R111, 93_implementation_defined.md U7 'refuse'). Safe: the machine stops. -/
  | commandWhileBusy
  /-- Raised by step when the reset event arrives while the block is busy: not defined (R103,
  93_implementation_defined.md U6 'refuse'). Safe: the machine stops. -/
  | resetWhileBusy
deriving DecidableEq, Repr

/-- What the block finds at the host port at the beginning of a step. -/
inductive Fetch where
  /-- Idle and nothing presented (R99). -/
  | quiet
  /-- Idle and the reset event; the state is the one without that event. -/
  | reset (s : State)
  /-- Idle and a command word; the state is the one without that event. -/
  | command (w : Word) (s : State)
  /-- Busy with a command in flight. -/
  | busy (f : Flight)
  /-- Busy and the host drives the port all the same. -/
  | refuse (r : Refusal)
deriving DecidableEq, Repr

/-- Right after reset (R27, R101): no command in flight. The parameters stand at the defaults of R9; no
event is presented, no transaction answered, no output made. -/
def State.reset : State where
  config := Config.defaults
  inflight := none
  host := []
  answers := []
  trace := []
  responses := []

end Sys2Proof.Machine
end

