-- ==== Sys2Proof/Machine/Operands.lean ====
section
/-! DEFINITION. The data formats (R55 to R58), the two decoders' arithmetic (R65 to R67), the result formats
(R61), the Celsius value that a result denotes (R16), and the bus transactions of each command (R74, R75,
R80, R81). -/

namespace Sys2Proof.Machine

/-- W24 = {high, mid, low} (R34, R56). -/
def tcWord (low mid high : Byte) : BitVec Config.tcWordBits := high ++ mid ++ low

/-- F19 = W24 >> 5 = W24[23:5] (R56). -/
def tcField (w : BitVec Config.tcWordBits) : BitVec Config.tcFieldBits :=
  w.extractLsb' Config.tcDiscardBits Config.tcFieldBits

/-- The thermocouple result: sext_32(F19), in units of 2^-7 °C (R61, R65). -/
def decodeTc (low mid high : Byte) : Word := (tcField (tcWord low mid high)).signExtend 32

/-- W16 = {high, low} (R34, R57). -/
def cjWord (low high : Byte) : BitVec Config.cjWordBits := high ++ low

/-- F14 = W16 >> 2 = W16[15:2] (R57). -/
def cjField (w : BitVec Config.cjWordBits) : BitVec Config.cjFieldBits :=
  w.extractLsb' Config.cjDiscardBits Config.cjFieldBits

/-- Q8 = {F14, 00}: the field on the 2^-8 °C scale (R57). -/
def cjQ8 (f : BitVec Config.cjFieldBits) : BitVec Config.cjWordBits := f ++ 0#Config.cjDiscardBits

/-- The cold-junction result: sext_32(Q8), in units of 2^-8 °C (R61, R66). -/
def decodeCj (low high : Byte) : Word := (cjQ8 (cjField (cjWord low high))).signExtend 32

/-- The RESULT of RDREG: zext_32(data) (R61, R74). -/
def byteResult (data : Byte) : Word := data.zeroExtend 32

/-- The RESULT of a successful WRREG (R61, R75, decision D24). -/
def writeResult : Word := 0x00000000

/-- The temperature in °C that a thermocouple result denotes, exactly: sint_32(RESULT) / 128 (R16). The block
performs no division; this is the reader's interpretation. -/
def tcCelsius (result : Word) : Rat := (result.toInt : Rat) / 2 ^ Config.tcFracBits

/-- The temperature in °C that a cold-junction result denotes, exactly: sint_32(RESULT) / 256 (R16). -/
def cjCelsius (result : Word) : Rat := (result.toInt : Rat) / 2 ^ Config.cjWordFracBits

/-- Three things named low, mid and high, in the order of TC_READ_ORDER (R9). -/
def tcArrange {α : Type} (o : Config.TcOrder) (lo mid hi : α) : List α :=
  match o with
  | .loMidHi => [lo, mid, hi]
  | .loHiMid => [lo, hi, mid]
  | .midLoHi => [mid, lo, hi]
  | .midHiLo => [mid, hi, lo]
  | .hiLoMid => [hi, lo, mid]
  | .hiMidLo => [hi, mid, lo]

/-- Two things named low and high, in the order of CJ_READ_ORDER (R9). -/
def cjArrange {α : Type} (o : Config.CjOrder) (lo hi : α) : List α :=
  match o with
  | .loHi => [lo, hi]
  | .hiLo => [hi, lo]

/-- RDREG's one transaction: the address of the operand, unchanged (R31, R73, R74). -/
def rdregTxns (addr : Byte) : List Txn := [.read .t addr]

/-- WRREG's one transaction: address and data of the operands, unchanged (R31, R73, R75). -/
def wrregTxns (addr data : Byte) : List Txn := [.write addr data]

/-- RDTC's three single-byte reads in TC_READ_ORDER (R37, R80); the parameter that names an address, never
the order, decides which temporary the byte goes to (R80 a). -/
def rdtcTxns (p : Config.Params) : List Txn :=
  tcArrange p.tcReadOrder (.read .lo p.addrTcLo) (.read .mid p.addrTcMid) (.read .hi p.addrTcHi)

/-- RDCJ's two single-byte reads in CJ_READ_ORDER (R37, R81). -/
def rdcjTxns (p : Config.Params) : List Txn :=
  cjArrange p.cjReadOrder (.read .lo p.addrCjLo) (.read .hi p.addrCjHi)

/-- The transactions that the rule of a command lists, in the listed order (R39, R41 a). The decoders have
none (R64). -/
def txnsOf (p : Config.Params) : Instr → List Txn
  | .rdreg addr => rdregTxns addr
  | .wrreg addr data => wrregTxns addr data
  | .dectc _ _ _ => []
  | .deccj _ _ => []
  | .rdtc => rdtcTxns p
  | .rdcj => rdcjTxns p

/-- The RESULT of a command once every transaction of it has answered Ok, from its temporaries (R61); no
value if one that it needs is unwritten (R23). -/
def resultOf (cmd : Instr) (temps : Temps) : Option Word :=
  match cmd with
  | .rdreg _ => temps.t.map byteResult
  | .wrreg _ _ => some writeResult
  | .dectc low mid high => some (decodeTc low mid high)
  | .deccj high low => some (decodeCj low high)
  | .rdtc =>
    match temps.lo, temps.mid, temps.hi with
    | some lo, some mid, some hi => some (decodeTc lo mid hi)
    | _, _, _ => none
  | .rdcj =>
    match temps.lo, temps.hi with
    | some lo, some hi => some (decodeCj lo hi)
    | _, _ => none

end Sys2Proof.Machine
end

