-- ==== Sys2Proof/Machine/Ops.lean ====
section
/-! DEFINITION. The shared operations: delivering a response, raising an exception (R93), accepting a command
(R111), issuing bus transactions and taking their answers (R14, R41, R82), the reset event (R102), and what
the block finds at the host port. -/

namespace Sys2Proof.Machine

/-- The command in flight ends and its response goes to the host; the block becomes idle and its
temporaries are discarded (R13 'respond', R15, R23, R24). -/
def respond (r : Response) (s : State) : State :=
  { s with inflight := none, responses := s.responses ++ [r] }

/-- The error response of an exception (R93); the e of a transport error is passed on unmodified (R86). -/
def Exn.response : Exn → Response
  | .transportError e => .transportError e
  | .illegalCommand => .illegalCmd

/-- RAISING AN EXCEPTION, the one shared operation (R93, R94): the command stops, issues no further bus
transaction, and its response is the error response with no result; the block becomes idle. Nothing is
saved, no mode or mask changes, control goes nowhere. There is no return from an exception, because there
is nothing to return from (R95). -/
def raise (x : Exn) (s : State) : State := respond x.response s

/-- Writes a temporary (R23). -/
def Temps.put (temps : Temps) (x : Temp) (d : Byte) : Temps :=
  match x with
  | .t => { temps with t := some d }
  | .lo => { temps with lo := some d }
  | .mid => { temps with mid := some d }
  | .hi => { temps with hi := some d }

/-- Reads a temporary: no value while it is unwritten (R23). -/
def Temps.get (temps : Temps) (x : Temp) : Option Byte :=
  match x with
  | .t => temps.t
  | .lo => temps.lo
  | .mid => temps.mid
  | .hi => temps.hi

/-- A successful BusRead writes its temporary; a BusWrite writes none (R23). -/
def Txn.store (x : Txn) (temps : Temps) (d : Byte) : Temps :=
  match x with
  | .read dst _ => temps.put dst d
  | .write _ _ => temps

/-- The bus event of a transaction that answered Ok (R41). -/
def Txn.okEvent (x : Txn) (d : Byte) : BusEvent :=
  match x with
  | .read _ addr => .rd addr (.ok d)
  | .write addr data => .wr addr data .ok

/-- The bus event of a transaction that answered Err(e) (R41). -/
def Txn.errEvent (x : Txn) (e : TransportError) : BusEvent :=
  match x with
  | .read _ addr => .rd addr (.err e)
  | .write addr data => .wr addr data (.err e)

/-- The outstanding transaction has answered: the answer is used up and the event joins the bus trace
(R41). DESIGN CHOICE: it joins the trace only now, with its answer, and not when it is issued (log entry
17). -/
def answered (ev : BusEvent) (more : List Answer) (s : State) : State :=
  { s with answers := more, trace := s.trace ++ [ev] }

/-- The outstanding transaction has not answered: the block stays busy with it (R24, R38, R110). DESIGN
CHOICE: it stands in `Flight.outstanding` and not in the trace; the event that 95_test_vectors.md A8 writes
as Rd(addr, no answer) is this one (log entry 17). -/
def stayBusy (f : Flight) (more : List Answer) (s : State) : State :=
  { s with inflight := some f, answers := more }

/-- The last transaction has answered Ok: the command responds OK with its result (R13). -/
def finish (cmd : Instr) (temps : Temps) (s : State) : Host.Outcome State Fault Refusal :=
  match resultOf cmd temps with
  | some result => .next (respond (.ok result) s)
  | none => .fault .unwrittenTemporary

/-- Issues the transactions one at a time, each after the one before it has returned (R41 b), each exactly
once, with no retry (R39, R76). Err(e) ends the command with the error response: the remaining ones are not
issued (R82). Where the transport does not return, the block stays busy with the transaction outstanding;
with no answer at all to come it is so for ever (R110). -/
def transact (cmd : Instr) (temps : Temps) (txns : List Txn) (s : State) :
    Host.Outcome State Fault Refusal :=
  match txns with
  | [] => finish cmd temps s
  | x :: xs =>
    match s.answers with
    | [] => .next (stayBusy ⟨cmd, temps, x, xs⟩ [] s)
    | .later :: more => .next (stayBusy ⟨cmd, temps, x, xs⟩ more s)
    | .err e :: more => .next (raise (.transportError e) (answered (x.errEvent e) more s))
    | .ok d :: more => transact cmd (x.store temps d) xs (answered (x.okEvent d) more s)

/-- A command is accepted only when the block is idle (R24, R111); one that is presented while the block is
busy has no meaning (93_implementation_defined.md U7). The block refuses no command for its content. -/
def accept (s : State) (body : Host.Outcome State Fault Refusal) : Host.Outcome State Fault Refusal :=
  match s.inflight with
  | none => body
  | some _ => .refused .commandWhileBusy

/-- The block goes on with the command in flight (R24, R41). -/
def resume (f : Flight) (s : State) : Host.Outcome State Fault Refusal :=
  transact f.cmd f.temps (f.outstanding :: f.rest) s

/-- The reset event (R102): its only effect is R101. It sends nothing over the bus and leaves the device
alone (R104); it delivers no response. -/
def resetBlock (s : State) : State := { s with inflight := none }

/-- What the block finds at the host port (R111): an idle block accepts at once; a host that keeps to R111
waits while the block is busy; an early event at a busy block has no meaning (R103, R111). -/
def fetch (s : State) : Fetch :=
  match s.inflight with
  | none =>
    match s.host with
    | [] => .quiet
    | .reset _ :: more => .reset { s with host := more }
    | .command w _ :: more => .command w { s with host := more }
  | some f =>
    match s.host with
    | .reset true :: _ => .refuse .resetWhileBusy
    | .command _ true :: _ => .refuse .commandWhileBusy
    | _ => .busy f

/-- The state in which the host presents the word `w` next: the block idle, so that it is accepted, and the
word at the head of what the host does (R111). -/
def present (w : Word) (s : State) : State :=
  { s with inflight := none, host := .command w false :: s.host }

end Sys2Proof.Machine
end

