-- ==== Sys2Proof/Machine/Accessor.lean ====
section
/-! DEFINITION. The accessor commands RDREG and WRREG (41_accessor.md): one bus transaction each, and its
outcome as the response (R73). -/

namespace Sys2Proof.Machine

/-- RDREG (R74): BusRead(addr), then OK(zext_32(data)) or TRANSPORT_ERROR(e). -/
def execRdreg (addr : Byte) (s : State) : Host.Outcome State Fault Refusal :=
  accept s (transact (.rdreg addr) {} (rdregTxns addr) s)

/-- WRREG (R75): BusWrite(addr, data), then OK(0) or TRANSPORT_ERROR(e). The register is not read back and
no address is refused. -/
def execWrreg (addr data : Byte) (s : State) : Host.Outcome State Fault Refusal :=
  accept s (transact (.wrreg addr data) {} (wrregTxns addr data) s)

end Sys2Proof.Machine
end

