-- ==== Sys2Proof/Machine/Decoders.lean ====
section
/-! DEFINITION. The decoder commands DECTC and DECCJ (40_decoders.md): pure, total functions of the command
word that issue no bus transaction and always respond OK (R64, R88). -/

namespace Sys2Proof.Machine

/-- DECTC (R65): OK(sext_32({high, mid, low}[23:5])). -/
def execDectc (low mid high : Byte) (s : State) : Host.Outcome State Fault Refusal :=
  accept s (.next (respond (.ok (decodeTc low mid high)) s))

/-- DECCJ (R66): OK(sext_32({high, low} & 0xFFFC)). -/
def execDeccj (high low : Byte) (s : State) : Host.Outcome State Fault Refusal :=
  accept s (.next (respond (.ok (decodeCj low high)) s))

end Sys2Proof.Machine
end

