-- ==== Sys2Proof/Machine/Readings.lean ====
section
/-! DEFINITION. The reading commands RDTC and RDCJ (42_readings.md): a register read per byte followed by a
decode, and nothing else (R79); the first read that fails ends the command (R82). -/

namespace Sys2Proof.Machine

/-- RDTC (R80): three reads in TC_READ_ORDER, then as DECTC. -/
def execRdtc (s : State) : Host.Outcome State Fault Refusal :=
  accept s (transact .rdtc {} (rdtcTxns s.config) s)

/-- RDCJ (R81): two reads in CJ_READ_ORDER, then as DECCJ. -/
def execRdcj (s : State) : Host.Outcome State Fault Refusal :=
  accept s (transact .rdcj {} (rdcjTxns s.config) s)

end Sys2Proof.Machine
end

