-- ==== Sys2Proof/Machine/Dispatch.lean ====
section
/-! DEFINITION. One arm per command: the third part of the decode procedure (R54), performing the row's
rule. -/

namespace Sys2Proof.Machine

def exec (i : Instr) (s : State) : Host.Outcome State Fault Refusal :=
  match i with
  | .rdreg addr => Sys2Proof.Machine.execRdreg addr s
  | .wrreg addr data => Sys2Proof.Machine.execWrreg addr data s
  | .dectc low mid high => Sys2Proof.Machine.execDectc low mid high s
  | .deccj high low => Sys2Proof.Machine.execDeccj high low s
  | .rdtc => Sys2Proof.Machine.execRdtc s
  | .rdcj => Sys2Proof.Machine.execRdcj s

end Sys2Proof.Machine
end

