-- ==== Sys2Proof/Machine/Step.lean ====
section
/-! DEFINITION. One step of the machine. The block has no program counter and fetches from no memory (R19):
its next instruction is the word that the host presents next (R111). -/

namespace Sys2Proof.Machine

/-- A step. Idle: nothing presented changes nothing (R99); the reset event (R102); a command word is decoded
and performed, or raises IllegalCommand before anything else happens (R54, R87). Busy: the command in flight
goes on (R24), and where the transport never answers the state stays as it is (R110); an event that the host
drives all the same is refused (R103, R111). -/
def step (s : State) : Host.Outcome State Fault Refusal :=
  match fetch s with
  | .quiet => .next s
  | .reset s' => .next (resetBlock s')
  | .command w s' =>
    match decode w with
    | .ok i => exec i s'
    | .error _ => .next (raise .illegalCommand s')
  | .busy f => resume f s
  | .refuse r => .refused r

/-- `s` with the word `w`, its bits numbered as the opcode table numbers them, presented by the host to an
idle block, so that the next step accepts exactly it. -/
def State.withFetchWord (s : State) (nbits w : Nat) : State := present (tableWord nbits w) s

end Sys2Proof.Machine
end

