-- ==== Sys2Proof/Machine/Flags.lean ====
section
/-! DEFINITION. The block has no flags, no condition codes and no sticky error bit, and no command writes or
reads one (R20). The success or failure of a command is in its response only: this file gives that
response its packed form (R60) and the reading of it on the host's side. -/

namespace Sys2Proof.Machine

/-- The STATUS codes (R60, R85); code 3 is never produced. -/
def statusOf : Response → BitVec 2
  | .ok _ => 0
  | .transportError _ => 1
  | .illegalCmd => 2

/-- The RESULT of a response: a value only with STATUS = OK (R60, decision D23). -/
def resultIn : Response → Option Word
  | .ok result => some result
  | .transportError _ => none
  | .illegalCmd => none

/-- TERR: the e of the failed bus call, unmodified, present for a transport error only (R60, R86). -/
def terrIn : Response → Option TransportError
  | .ok _ => none
  | .transportError e => some e
  | .illegalCmd => none

/-- The packed response (R60). -/
def packResponse (r : Response) : PackedResponse := ⟨statusOf r, resultIn r, terrIn r⟩

/-- The host reads a packed response: it looks at STATUS first and at RESULT only when STATUS = OK (R60,
R100, R108). A packed form that the block never produces means a broken link
(93_implementation_defined.md U9). -/
def unpackResponse (p : PackedResponse) : Except Fault Response :=
  if p.status = 0 then
    match p.result with
    | some result => .ok (.ok result)
    | none => .error .brokenLink
  else if p.status = 1 then
    match p.terr with
    | some e => .ok (.transportError e)
    | none => .error .brokenLink
  else if p.status = 2 then .ok .illegalCmd
  else .error .brokenLink

end Sys2Proof.Machine
end

