-- ==== Sys2Proof/Safety.lean ====
section
/-! DEFINITION. The terms in which claims about runs are stated: the premises that the spec names (the host
keeps to R111, the device's registers hold still, R106), the invariant of the machine, and the two views of
a state that claims compare (a renaming of transport errors, the requests that reach the bus). -/

namespace Sys2Proof.Safety

open Sys2Proof.Machine

/-- The host keeps to R111: none of the events it has still to drive is driven without waiting for the
block to be idle. -/
def HostKeepsProtocol (s : State) : Prop :=
  ∀ ev ∈ s.host, (∀ w, ev ≠ .command w true) ∧ ev ≠ .reset true

/-- The answers of a device whose registers hold the bytes of `m` throughout and whose calls all return Ok,
to the transactions `txns` (the premise of R106). For tests and premises only: the device is in no source
(R30). A write gets the Ok that a write gets, which carries no byte. -/
def servedBy (m : Byte → Byte) (txns : List Txn) : List Answer :=
  txns.map fun x =>
    match x with
    | .read _ addr => .ok (m addr)
    | .write _ _ => .ok 0

/-- The answers without the delays: what the transport answers, whenever it does. -/
def prompt (answers : List Answer) : List Answer := answers.filter (· ≠ .later)

/-- TC_READ_ORDER spelled out (R9, R80): each of its six values arranges three things, whatever they are, in
the order that it is named for. -/
def TcReadOrdersSpelledOut : Prop :=
  ∀ (α : Type) (lo mid hi : α),
    tcArrange .loMidHi lo mid hi = [lo, mid, hi] ∧ tcArrange .loHiMid lo mid hi = [lo, hi, mid] ∧
    tcArrange .midLoHi lo mid hi = [mid, lo, hi] ∧ tcArrange .midHiLo lo mid hi = [mid, hi, lo] ∧
    tcArrange .hiLoMid lo mid hi = [hi, lo, mid] ∧ tcArrange .hiMidLo lo mid hi = [hi, mid, lo]

/-- CJ_READ_ORDER spelled out (R9, R81): likewise for its two values. -/
def CjReadOrdersSpelledOut : Prop :=
  ∀ (α : Type) (lo hi : α), cjArrange .loHi lo hi = [lo, hi] ∧ cjArrange .hiLo lo hi = [hi, lo]

/-- The temporary that a transaction writes when it succeeds (R23). -/
def destOf : Txn → Option Temp
  | .read dst _ => some dst
  | .write _ _ => none

/-- What reaches the bus of a transaction: the address, and the data of a write. -/
def requestOf : Txn → Byte × Option Byte
  | .read _ addr => (addr, none)
  | .write addr data => (addr, some data)

/-- What reached the bus in an event of the trace. -/
def requestIn : BusEvent → Byte × Option Byte
  | .rd addr _ => (addr, none)
  | .wr addr data _ => (addr, some data)

/-- The error that an event of the bus trace was answered with, if any. -/
def errorIn : BusEvent → Option TransportError
  | .rd _ (.ok _) => none
  | .rd _ (.err e) => some e
  | .wr _ _ .ok => none
  | .wr _ _ (.err e) => some e

/-- A command in flight is exactly part of the way through the transactions of its rule: `n` of them have
been answered, the next is outstanding, the others are still to be issued, and the temporaries that are
written are those that the answered reads wrote (R23, R39, R41). -/
def FlightOk (p : Config.Params) (f : Flight) : Prop :=
  ∃ n, (txnsOf p f.cmd).drop n = f.outstanding :: f.rest ∧
    ∀ x : Temp, (f.temps.get x).isSome = true ↔ some x ∈ ((txnsOf p f.cmd).take n).map destOf

/-- The invariant of the machine: the OPEN parameters are well formed (R9) and a command in flight is
exactly part of the way through its rule. -/
def Inv (s : State) : Prop :=
  s.config.wellFormed = true ∧ ∀ f, s.inflight = some f → FlightOk s.config f

/-- An answer with its transport error renamed. -/
def renameAnswer (g : TransportError → TransportError) : Answer → Answer
  | .ok d => .ok d
  | .err e => .err (g e)
  | .later => .later

/-- A bus event with its transport error renamed. -/
def renameEvent (g : TransportError → TransportError) : BusEvent → BusEvent
  | .rd a (.ok d) => .rd a (.ok d)
  | .rd a (.err e) => .rd a (.err (g e))
  | .wr a d .ok => .wr a d .ok
  | .wr a d (.err e) => .wr a d (.err (g e))

/-- A response with its transport error renamed. -/
def renameResponse (g : TransportError → TransportError) : Response → Response
  | .ok r => .ok r
  | .transportError e => .transportError (g e)
  | .illegalCmd => .illegalCmd

/-- A state with every transport error in it renamed (93_implementation_defined.md U12). -/
def renameErrors (g : TransportError → TransportError) (s : State) : State :=
  { s with
    answers := s.answers.map (renameAnswer g)
    trace := s.trace.map (renameEvent g)
    responses := s.responses.map (renameResponse g) }

/-- An outcome with its state mapped. -/
def mapState (h : State → State) : Host.Outcome State Fault Refusal → Host.Outcome State Fault Refusal
  | .next s => .next (h s)
  | .fault r => .fault r
  | .refused r => .refused r

end Sys2Proof.Safety
end

