-- ==== Sys2Proof/Certificates/Slice0/Obligations.lean ====
section
/-! DEFINITION. What the provers are asked: statements of the spec's numbered rules about the machine. "Idle"
is `s.inflight = none` (R24); a command is accepted only then (R111). -/

open Sys2Proof Sys2Proof.Machine Sys2Proof.Safety

/-! ## Encoding -/

/-- Six words that the spec spells out decode to the commands it says they are (the examples of R62, R65,
R66, R74, R75, R80, R81; 95_test_vectors.md). A sanity statement. -/
def Obligations.DecodeReadsTheSpecsWords : Prop :=
  decode 0x01000C00 = .ok (.rdreg 0x0C) ∧
  decode 0x02008010 = .ok (.wrreg 0x80 0x10) ∧
  decode 0x03017020 = .ok (.dectc 0x20 0x70 0x01) ∧
  decode 0x04001C64 = .ok (.deccj 0x1C 0x64) ∧
  decode 0x05000000 = .ok .rdtc ∧
  decode 0x06000000 = .ok .rdcj

/-- Decoding the encoding of a command gives the command back, with every operand at every value. -/
def Obligations.DecodeOfEncodeIsTheCommand : Prop :=
  ∀ i : Instr, decode (encode i) = .ok i

/-- A word that decodes to a command is that command's encoding: no two words mean one command, and no bit
of a legal word is ignored by the decoder. -/
def Obligations.EncodeOfDecodeIsTheWord : Prop :=
  ∀ (w : Word) (i : Instr), decode w = .ok i → encode i = w

/-- The opcode map (R49): its six rows, what it means that a word selects a row, and that no word selects
two of them. -/
def Obligations.OpcodeRowsAreDisjoint : Prop :=
  opcodeTable.map (fun r => (r.mnemonic, r.format, r.pattern, r.mask)) =
    [("RDREG", .a, 0x01000000, 0xFFFF00FF), ("WRREG", .ad, 0x02000000, 0xFFFF0000),
     ("DECTC", .t, 0x03000000, 0xFF000000), ("DECCJ", .c, 0x04000000, 0xFFFF0000),
     ("RDTC", .n, 0x05000000, 0xFFFFFFFF), ("RDCJ", .n, 0x06000000, 0xFFFFFFFF)] ∧
  (∀ (r : Row) (w : Word), r.selects w = true ↔ w &&& r.mask = r.pattern) ∧
  ∀ w : Word, ∀ r ∈ opcodeTable, ∀ r' ∈ opcodeTable,
    r.selects w = true → r'.selects w = true → r = r'

/-- The decode procedure (R54): a word decodes to a command of the row that it selects; it is rejected
exactly when it selects none. -/
def Obligations.DecodeFollowsTheOpcodeMap : Prop :=
  (∀ (w : Word) (i : Instr), decode w = .ok i → i.row ∈ opcodeTable ∧ i.row.selects w = true) ∧
  (∀ w : Word, (∃ e, decode w = .error e) ↔ ∀ r ∈ opcodeTable, r.selects w = false)

/-- Reserved lanes (R50): exactly the words with opcode 0x01 to 0x06 that have a non-zero bit in a lane their
format marks 0 are rejected for that reason, and they select no row; the rule's three examples are such
words. That a rejection carries a reason, and the name `reservedLane` for this one, are the model's choice
(log entry 12): the spec has one IllegalCommand. -/
def Obligations.ReservedLanesMatchNoRow : Prop :=
  (∀ w : Word,
    ((w.extractLsb' 24 8 = (0x01 : Byte) ∧
        (w.extractLsb' 16 8 ≠ (0 : Byte) ∨ w.extractLsb' 0 8 ≠ (0 : Byte))) ∨
     (w.extractLsb' 24 8 = (0x02 : Byte) ∧ w.extractLsb' 16 8 ≠ (0 : Byte)) ∨
     (w.extractLsb' 24 8 = (0x04 : Byte) ∧ w.extractLsb' 16 8 ≠ (0 : Byte)) ∨
     ((w.extractLsb' 24 8 = (0x05 : Byte) ∨ w.extractLsb' 24 8 = (0x06 : Byte)) ∧
        w.extractLsb' 0 24 ≠ (0 : BitVec 24))) ↔
    decode w = .error .reservedLane) ∧
  (∀ w : Word, decode w = .error .reservedLane → ∀ r ∈ opcodeTable, r.selects w = false) ∧
  ∀ w ∈ [(0x01000C01 : Word), 0x05000001, 0x0401C964], decode w = .error .reservedLane

/-- Illegal commands (R51, R87): a word that selects no row (which are the opcodes 0x00 and 0x07 to 0xFF and
the reserved-lane cases, the all-zero and the all-ones word among them) gets ILLEGAL_CMD from an idle block;
no bus transaction is issued and nothing else changes. The first clause gives the reserved-lane cases by
the decoder's own name for them, which is the model's choice (log entry 12); ReservedLanesMatchNoRow says
which words they are. -/
def Obligations.IllegalWordsRespondIllegalCmd : Prop :=
  (∀ w : Word, (∀ r ∈ opcodeTable, r.selects w = false) ↔
    ((w.extractLsb' 24 8 : Byte).toNat = 0 ∨ 7 ≤ (w.extractLsb' 24 8 : Byte).toNat ∨
      decode w = .error .reservedLane)) ∧
  (∀ r ∈ opcodeTable, r.selects 0x00000000 = false ∧ r.selects 0xFFFFFFFF = false) ∧
  ∀ (s : State) (w : Word) (early : Bool) (more : List HostEvent),
    s.inflight = none → s.host = .command w early :: more →
    (∀ r ∈ opcodeTable, r.selects w = false) →
    step s = .next { s with host := more, responses := s.responses ++ [.illegalCmd] }

/-- The assembler syntax, row by row (R62): each mnemonic with its operands in the order of its row is the
word of the row's encoding column, and so is the command that the row names. The last clause says that a
line spells at most one command and a command has exactly one line: that a line is no more than its mnemonic
and its byte operands is the model's choice (log entry 16). -/
def Obligations.AssemblerSyntaxEncodes : Prop :=
  (∀ addr : Byte, (Instr.ofAsm ⟨"RDREG", [addr]⟩).map encode
    = some (0x01000000 + (addr.zeroExtend 32 <<< 8))) ∧
  (∀ addr data : Byte, (Instr.ofAsm ⟨"WRREG", [addr, data]⟩).map encode
    = some (0x02000000 + (addr.zeroExtend 32 <<< 8) + data.zeroExtend 32)) ∧
  (∀ b0 b1 b2 : Byte, (Instr.ofAsm ⟨"DECTC", [b0, b1, b2]⟩).map encode
    = some (0x03000000 + (b2.zeroExtend 32 <<< 16) + (b1.zeroExtend 32 <<< 8) + b0.zeroExtend 32)) ∧
  (∀ msb lsb : Byte, (Instr.ofAsm ⟨"DECCJ", [msb, lsb]⟩).map encode
    = some (0x04000000 + (msb.zeroExtend 32 <<< 8) + lsb.zeroExtend 32)) ∧
  (Instr.ofAsm ⟨"RDTC", []⟩).map encode = some 0x05000000 ∧
  (Instr.ofAsm ⟨"RDCJ", []⟩).map encode = some 0x06000000 ∧
  (∀ addr : Byte, encode (.rdreg addr) = 0x01000000 + (addr.zeroExtend 32 <<< 8)) ∧
  (∀ addr data : Byte, encode (.wrreg addr data)
    = 0x02000000 + (addr.zeroExtend 32 <<< 8) + data.zeroExtend 32) ∧
  (∀ low mid high : Byte, encode (.dectc low mid high)
    = 0x03000000 + (high.zeroExtend 32 <<< 16) + (mid.zeroExtend 32 <<< 8) + low.zeroExtend 32) ∧
  (∀ high low : Byte, encode (.deccj high low)
    = 0x04000000 + (high.zeroExtend 32 <<< 8) + low.zeroExtend 32) ∧
  encode .rdtc = 0x05000000 ∧ encode .rdcj = 0x06000000 ∧
  ∀ (l : AsmLine) (i : Instr), Instr.ofAsm l = some i ↔ l = i.toAsm

/-! ## The decoders -/

/-- DECTC (R65): its operands in the command word, its result, its frame (nothing but the response), and that
it completes on every idle block. -/
def Obligations.DectcRespondsWithTheField : Prop :=
  (∀ w : Word, w.extractLsb' 24 8 = (0x03 : Byte) →
    decode w = .ok (.dectc (w.extractLsb' 0 8) (w.extractLsb' 8 8) (w.extractLsb' 16 8))) ∧
  ∀ (low mid high : Byte) (s : State), s.inflight = none →
    exec (.dectc low mid high) s = .next { s with
      responses := s.responses ++
        [.ok (((high ++ mid ++ low : BitVec 24).extractLsb' 5 19 : BitVec 19).signExtend 32)] }

/-- DECCJ (R66): its operands in the command word, its result, its frame (nothing but the response), and that
it completes on every idle block. -/
def Obligations.DeccjRespondsWithTheField : Prop :=
  (∀ w : Word, w.extractLsb' 24 8 = (0x04 : Byte) → w.extractLsb' 16 8 = (0x00 : Byte) →
    decode w = .ok (.deccj (w.extractLsb' 8 8) (w.extractLsb' 0 8))) ∧
  ∀ (high low : Byte) (s : State), s.inflight = none →
    exec (.deccj high low) s = .next { s with
      responses := s.responses ++
        [.ok (((high ++ low : BitVec 16) &&& 0xFFFC).signExtend 32)] }

/-- The decoders are pure and total (R64, R72, R88): the response of a decoder command is OK, with a result
that depends on its operands alone, whatever came before and whatever the environment does; no bus
transaction is issued and nothing else changes. -/
def Obligations.DecodersArePureAndTotal : Prop :=
  (∀ low mid high : Byte, ∃ r : Word, ∀ s : State, s.inflight = none →
    exec (.dectc low mid high) s = .next { s with responses := s.responses ++ [.ok r] }) ∧
  (∀ high low : Byte, ∃ r : Word, ∀ s : State, s.inflight = none →
    exec (.deccj high low) s = .next { s with responses := s.responses ++ [.ok r] })

/-- The universal properties of the decoders (R71): the denoted temperature is the field's signed integer
value over 128, and over 256. -/
def Obligations.DecodersDenoteTheFieldsTemperature : Prop :=
  (∀ (low mid high : Byte) (s : State), s.inflight = none →
    ∃ r : Word, exec (.dectc low mid high) s = .next { s with responses := s.responses ++ [.ok r] } ∧
      tcCelsius r
        = (((high ++ mid ++ low : BitVec 24).extractLsb' 5 19 : BitVec 19).toInt : Rat) / 128) ∧
  (∀ (high low : Byte) (s : State), s.inflight = none →
    ∃ r : Word, exec (.deccj high low) s = .next { s with responses := s.responses ++ [.ok r] } ∧
      cjCelsius r = (((high ++ low : BitVec 16) &&& 0xFFFC).toInt : Rat) / 256 ∧
      cjCelsius r
        = (((high ++ low : BitVec 16).extractLsb' 2 14 : BitVec 14).toInt : Rat) / 64)

/-- The equivalent formulations (R69), as equations of the result integer. `/` on Nat and on Int with a
positive divisor rounds toward minus infinity. -/
def Obligations.DecoderFormulationsAgree : Prop :=
  (∀ low mid high : Byte, ∀ w : BitVec 24, w = high ++ mid ++ low →
    (decodeTc low mid high).toInt
      = (if w.toNat / 32 < 2 ^ 18 then (w.toNat / 32 : Int) else (w.toNat / 32 : Int) - 2 ^ 19) ∧
    (decodeTc low mid high).toInt = w.toInt / 32) ∧
  (∀ low high : Byte, ∀ w : BitVec 16, w = high ++ low →
    (decodeCj low high).toInt
      = 4 * (if w.toNat / 4 < 2 ^ 13 then (w.toNat / 4 : Int) else (w.toNat / 4 : Int) - 2 ^ 14) ∧
    (decodeCj low high).toInt = (w &&& 0xFFFC).toInt ∧
    (decodeCj low high).toInt = w.toInt - ((w.extractLsb' 0 2 : BitVec 2).toNat : Int))

/-- The ranges of the decoders (R68): exactly these integers are results, so exactly these temperatures are
denoted, and none is clamped. -/
def Obligations.DecoderResultsFillTheirRanges : Prop :=
  (∀ n : Int, (∃ low mid high : Byte, (decodeTc low mid high).toInt = n) ↔
    -262144 ≤ n ∧ n ≤ 262143) ∧
  (∀ n : Int, (∃ low high : Byte, (decodeCj low high).toInt = n) ↔
    ∃ k : Int, -8192 ≤ k ∧ k ≤ 8191 ∧ n = 4 * k) ∧
  (∀ q : Rat, (∃ low mid high : Byte, tcCelsius (decodeTc low mid high) = q) ↔
    ∃ n : Int, -262144 ≤ n ∧ n ≤ 262143 ∧ q = (n : Rat) / 128) ∧
  (∀ q : Rat, (∃ low high : Byte, cjCelsius (decodeCj low high) = q) ↔
    ∃ k : Int, -8192 ≤ k ∧ k ≤ 8191 ∧ q = (k : Rat) / 64)

/-- The discarded bits (R58): low[4:0] of the thermocouple low byte and low[1:0] of the cold-junction low
byte have no influence on any result, of the decoder commands or of the readings in any read order; RDREG
returns the whole byte. -/
def Obligations.DiscardedBitsHaveNoInfluence : Prop :=
  TcReadOrdersSpelledOut ∧ CjReadOrdersSpelledOut ∧
  (∀ (low low' mid high : Byte) (s : State), (low.extractLsb' 5 3 : BitVec 3) = low'.extractLsb' 5 3 →
    exec (.dectc low mid high) s = exec (.dectc low' mid high) s) ∧
  (∀ (high low low' : Byte) (s : State), (low.extractLsb' 2 6 : BitVec 6) = low'.extractLsb' 2 6 →
    exec (.deccj high low) s = exec (.deccj high low') s) ∧
  (∀ (low low' mid high : Byte) (s : State) (more : List Answer), s.inflight = none →
    (low.extractLsb' 5 3 : BitVec 3) = low'.extractLsb' 5 3 →
    ∃ t t' : State,
      exec .rdtc { s with
        answers := tcArrange s.config.tcReadOrder (Answer.ok low) (Answer.ok mid) (Answer.ok high) ++ more }
        = .next t ∧
      exec .rdtc { s with
        answers := tcArrange s.config.tcReadOrder (Answer.ok low') (Answer.ok mid) (Answer.ok high) ++ more }
        = .next t' ∧
      t.responses = t'.responses) ∧
  (∀ (high low low' : Byte) (s : State) (more : List Answer), s.inflight = none →
    (low.extractLsb' 2 6 : BitVec 6) = low'.extractLsb' 2 6 →
    ∃ t t' : State,
      exec .rdcj { s with
        answers := cjArrange s.config.cjReadOrder (Answer.ok low) (Answer.ok high) ++ more }
        = .next t ∧
      exec .rdcj { s with
        answers := cjArrange s.config.cjReadOrder (Answer.ok low') (Answer.ok high) ++ more }
        = .next t' ∧
      t.responses = t'.responses) ∧
  (∀ (addr d : Byte) (s : State) (more : List Answer), s.inflight = none → s.answers = .ok d :: more →
    ∃ t : State, exec (.rdreg addr) s = .next t ∧
      ∃ r : Word, t.responses = s.responses ++ [.ok r] ∧ (r.extractLsb' 0 8 : Byte) = d)

/-! ## The accessor -/

/-- RDREG (R74): its operand in the command word; on Ok(data) it responds OK with the byte zero-extended; on
Err(e) it responds TRANSPORT_ERROR(e); exactly one event joins the bus trace, at the address of the operand,
and nothing else changes. If the BusRead does not return, the block is busy with it and does not respond
(that it never does is SilentTransportHangsTheBlock); that the trace has no event for it then is the model's
choice (log entry 17). -/
def Obligations.RdregReadsOneRegister : Prop :=
  (∀ w : Word, w.extractLsb' 24 8 = (0x01 : Byte) → w.extractLsb' 16 8 = (0x00 : Byte) →
    w.extractLsb' 0 8 = (0x00 : Byte) → decode w = .ok (.rdreg (w.extractLsb' 8 8))) ∧
  (∀ (addr data : Byte) (s : State) (more : List Answer),
    s.inflight = none → s.answers = .ok data :: more →
    exec (.rdreg addr) s = .next { s with
      answers := more
      trace := s.trace ++ [BusEvent.rd addr (.ok data)]
      responses := s.responses ++ [.ok ((0 : BitVec 24) ++ data)] }) ∧
  (∀ (addr : Byte) (e : TransportError) (s : State) (more : List Answer),
    s.inflight = none → s.answers = Answer.err e :: more →
    exec (.rdreg addr) s = .next { s with
      answers := more
      trace := s.trace ++ [BusEvent.rd addr (.err e)]
      responses := s.responses ++ [.transportError e] }) ∧
  (∀ (addr : Byte) (s : State), s.inflight = none → s.answers = [] →
    exec (.rdreg addr) s = .next { s with inflight := some ⟨.rdreg addr, {}, .read .t addr, []⟩ })

/-- WRREG (R75): its operands in the command word; on Ok it responds OK(0); on Err(e) it responds
TRANSPORT_ERROR(e); exactly one event joins the bus trace, with the address and the data of the operands, and
nothing else changes. If the BusWrite does not return, the block is busy with it and does not respond (that
it never does is SilentTransportHangsTheBlock); that the trace has no event for it then is the model's
choice (log entry 17). -/
def Obligations.WrregWritesOneRegister : Prop :=
  (∀ w : Word, w.extractLsb' 24 8 = (0x02 : Byte) → w.extractLsb' 16 8 = (0x00 : Byte) →
    decode w = .ok (.wrreg (w.extractLsb' 8 8) (w.extractLsb' 0 8))) ∧
  (∀ (addr data d : Byte) (s : State) (more : List Answer),
    s.inflight = none → s.answers = .ok d :: more →
    exec (.wrreg addr data) s = .next { s with
      answers := more
      trace := s.trace ++ [BusEvent.wr addr data .ok]
      responses := s.responses ++ [.ok 0x00000000] }) ∧
  (∀ (addr data : Byte) (e : TransportError) (s : State) (more : List Answer),
    s.inflight = none → s.answers = Answer.err e :: more →
    exec (.wrreg addr data) s = .next { s with
      answers := more
      trace := s.trace ++ [BusEvent.wr addr data (.err e)]
      responses := s.responses ++ [.transportError e] }) ∧
  (∀ (addr data : Byte) (s : State), s.inflight = none → s.answers = [] →
    exec (.wrreg addr data) s
      = .next { s with inflight := some ⟨.wrreg addr data, {}, .write addr data, []⟩ })

/-- A write constrains no later read (R30, R109): after a successful WRREG to an address, an RDREG of the
same address can return any byte at all. -/
def Obligations.WriteConstrainsNoLaterRead : Prop :=
  ∀ (addr data d : Byte) (s : State), s.inflight = none →
    ∃ (answers : List Answer) (t u : State),
      exec (.wrreg addr data) { s with answers := answers } = .next t ∧
      t.responses = s.responses ++ [.ok 0] ∧
      exec (.rdreg addr) t = .next u ∧
      u.responses = t.responses ++ [.ok ((0 : BitVec 24) ++ d)]

/-! ## The readings -/

/-- RDTC (R80): its word; what each of the six read orders is; then, for every read order and every address
parameter: three reads in that order, each byte to the lane that its address parameter names, the decoded
word as the result, and nothing else changed; on a failure at the k-th read, the first k events and
TRANSPORT_ERROR(e). -/
def Obligations.RdtcReadsAndDecodes : Prop :=
  decode 0x05000000 = .ok .rdtc ∧
  TcReadOrdersSpelledOut ∧
  (∀ (lo mid hi : Byte) (s : State) (more : List Answer), s.inflight = none →
    s.answers = tcArrange s.config.tcReadOrder (Answer.ok lo) (Answer.ok mid) (Answer.ok hi) ++ more →
    exec .rdtc s = .next { s with
      answers := more
      trace := s.trace ++ tcArrange s.config.tcReadOrder (BusEvent.rd s.config.addrTcLo (.ok lo))
        (BusEvent.rd s.config.addrTcMid (.ok mid)) (BusEvent.rd s.config.addrTcHi (.ok hi))
      responses := s.responses ++
        [.ok (((hi ++ mid ++ lo : BitVec 24).extractLsb' 5 19 : BitVec 19).signExtend 32)] }) ∧
  (∀ (lo mid hi addr : Byte) (e : TransportError) (k : Nat) (s : State) (more : List Answer),
    s.inflight = none →
    s.answers = (tcArrange s.config.tcReadOrder (Answer.ok lo) (Answer.ok mid) (Answer.ok hi)).take k
      ++ Answer.err e :: more →
    (tcArrange s.config.tcReadOrder s.config.addrTcLo s.config.addrTcMid s.config.addrTcHi)[k]?
      = some addr →
    exec .rdtc s = .next { s with
      answers := more
      trace := s.trace ++ (tcArrange s.config.tcReadOrder (BusEvent.rd s.config.addrTcLo (.ok lo))
        (BusEvent.rd s.config.addrTcMid (.ok mid)) (BusEvent.rd s.config.addrTcHi (.ok hi))).take k
        ++ [BusEvent.rd addr (.err e)]
      responses := s.responses ++ [.transportError e] })

/-- RDCJ (R81): its word; what each of the two read orders is; then, for both read orders and every address
parameter: likewise with two reads. -/
def Obligations.RdcjReadsAndDecodes : Prop :=
  decode 0x06000000 = .ok .rdcj ∧
  CjReadOrdersSpelledOut ∧
  (∀ (lo hi : Byte) (s : State) (more : List Answer), s.inflight = none →
    s.answers = cjArrange s.config.cjReadOrder (Answer.ok lo) (Answer.ok hi) ++ more →
    exec .rdcj s = .next { s with
      answers := more
      trace := s.trace ++ cjArrange s.config.cjReadOrder (BusEvent.rd s.config.addrCjLo (.ok lo))
        (BusEvent.rd s.config.addrCjHi (.ok hi))
      responses := s.responses ++ [.ok (((hi ++ lo : BitVec 16) &&& 0xFFFC).signExtend 32)] }) ∧
  (∀ (lo hi addr : Byte) (e : TransportError) (k : Nat) (s : State) (more : List Answer),
    s.inflight = none →
    s.answers = (cjArrange s.config.cjReadOrder (Answer.ok lo) (Answer.ok hi)).take k
      ++ Answer.err e :: more →
    (cjArrange s.config.cjReadOrder s.config.addrCjLo s.config.addrCjHi)[k]? = some addr →
    exec .rdcj s = .next { s with
      answers := more
      trace := s.trace ++ (cjArrange s.config.cjReadOrder (BusEvent.rd s.config.addrCjLo (.ok lo))
        (BusEvent.rd s.config.addrCjHi (.ok hi))).take k ++ [BusEvent.rd addr (.err e)]
      responses := s.responses ++ [.transportError e] })

/-- A reading equals its parts (R83): when no read fails, RDTC has the response and the bus trace of RDREG of
its three registers in TC_READ_ORDER followed by DECTC of the bytes they returned; likewise RDCJ. -/
def Obligations.ReadingsEqualTheirParts : Prop :=
  TcReadOrdersSpelledOut ∧ CjReadOrdersSpelledOut ∧
  (∀ (lo mid hi a b c : Byte) (s : State) (more : List Answer), s.inflight = none →
    s.answers = tcArrange s.config.tcReadOrder (Answer.ok lo) (Answer.ok mid) (Answer.ok hi) ++ more →
    [a, b, c] = tcArrange s.config.tcReadOrder s.config.addrTcLo s.config.addrTcMid s.config.addrTcHi →
    ∃ (t u1 u2 u3 u4 : State) (r : Word),
      exec .rdtc s = .next t ∧
      exec (.rdreg a) s = .next u1 ∧ exec (.rdreg b) u1 = .next u2 ∧ exec (.rdreg c) u2 = .next u3 ∧
      u3.responses = s.responses ++ tcArrange s.config.tcReadOrder
        (Response.ok ((0 : BitVec 24) ++ lo))
        (Response.ok ((0 : BitVec 24) ++ mid)) (Response.ok ((0 : BitVec 24) ++ hi)) ∧
      exec (.dectc lo mid hi) u3 = .next u4 ∧
      t.responses = s.responses ++ [.ok r] ∧ u4.responses = u3.responses ++ [.ok r] ∧
      t.trace = u4.trace ∧ t.answers = u4.answers) ∧
  (∀ (lo hi a b : Byte) (s : State) (more : List Answer), s.inflight = none →
    s.answers = cjArrange s.config.cjReadOrder (Answer.ok lo) (Answer.ok hi) ++ more →
    [a, b] = cjArrange s.config.cjReadOrder s.config.addrCjLo s.config.addrCjHi →
    ∃ (t u1 u2 u3 : State) (r : Word),
      exec .rdcj s = .next t ∧
      exec (.rdreg a) s = .next u1 ∧ exec (.rdreg b) u1 = .next u2 ∧
      u2.responses = s.responses ++ cjArrange s.config.cjReadOrder
        (Response.ok ((0 : BitVec 24) ++ lo)) (Response.ok ((0 : BitVec 24) ++ hi)) ∧
      exec (.deccj hi lo) u2 = .next u3 ∧
      t.responses = s.responses ++ [.ok r] ∧ u3.responses = u2.responses ++ [.ok r] ∧
      t.trace = u3.trace ∧ t.answers = u3.answers)

/-- Fresh every time (R46, R84): two RDTC commands one after the other issue six reads, each three of them in
TC_READ_ORDER, and each command responds with the decoding of its own three bytes, whatever the other's
were; likewise two RDCJ commands issue four reads. -/
def Obligations.EveryReadingIsFresh : Prop :=
  TcReadOrdersSpelledOut ∧ CjReadOrdersSpelledOut ∧
  (∀ (lo mid hi lo' mid' hi' : Byte) (s : State) (more : List Answer), s.inflight = none →
    s.answers = tcArrange s.config.tcReadOrder (Answer.ok lo) (Answer.ok mid) (Answer.ok hi)
      ++ (tcArrange s.config.tcReadOrder (Answer.ok lo') (Answer.ok mid') (Answer.ok hi') ++ more) →
    ∃ t u : State, exec .rdtc s = .next t ∧ exec .rdtc t = .next u ∧
      u.trace.length = s.trace.length + 6 ∧ u.answers = more ∧
      u.trace = s.trace ++
        tcArrange s.config.tcReadOrder (BusEvent.rd s.config.addrTcLo (.ok lo))
          (BusEvent.rd s.config.addrTcMid (.ok mid)) (BusEvent.rd s.config.addrTcHi (.ok hi)) ++
        tcArrange s.config.tcReadOrder (BusEvent.rd s.config.addrTcLo (.ok lo'))
          (BusEvent.rd s.config.addrTcMid (.ok mid')) (BusEvent.rd s.config.addrTcHi (.ok hi')) ∧
      u.responses = s.responses ++ [.ok (decodeTc lo mid hi), .ok (decodeTc lo' mid' hi')]) ∧
  (∀ (lo hi lo' hi' : Byte) (s : State) (more : List Answer), s.inflight = none →
    s.answers = cjArrange s.config.cjReadOrder (Answer.ok lo) (Answer.ok hi)
      ++ (cjArrange s.config.cjReadOrder (Answer.ok lo') (Answer.ok hi') ++ more) →
    ∃ t u : State, exec .rdcj s = .next t ∧ exec .rdcj t = .next u ∧
      u.trace.length = s.trace.length + 4 ∧ u.answers = more ∧
      u.trace = s.trace ++
        cjArrange s.config.cjReadOrder (BusEvent.rd s.config.addrCjLo (.ok lo))
          (BusEvent.rd s.config.addrCjHi (.ok hi)) ++
        cjArrange s.config.cjReadOrder (BusEvent.rd s.config.addrCjLo (.ok lo'))
          (BusEvent.rd s.config.addrCjHi (.ok hi')) ∧
      u.responses = s.responses ++ [.ok (decodeCj lo hi), .ok (decodeCj lo' hi')])

/-- A device whose registers hold still (the premise of R106): then, for every read order, a reading responds
with the decoding of the bytes that the device holds at the parameters' addresses. -/
def Obligations.StableRegistersAreReadTrue : Prop :=
  (∀ (m : Byte → Byte) (s : State) (more : List Answer), s.inflight = none →
    s.answers = servedBy m (rdtcTxns s.config) ++ more →
    ∃ t : State, exec .rdtc s = .next t ∧ t.responses = s.responses ++
      [.ok (decodeTc (m s.config.addrTcLo) (m s.config.addrTcMid) (m s.config.addrTcHi))]) ∧
  (∀ (m : Byte → Byte) (s : State) (more : List Answer), s.inflight = none →
    s.answers = servedBy m (rdcjTxns s.config) ++ more →
    ∃ t : State, exec .rdcj s = .next t ∧ t.responses = s.responses ++
      [.ok (decodeCj (m s.config.addrCjLo) (m s.config.addrCjHi))])

/-- The worked torn reading of R106: the device holds 0x00FFE0, then 0x010000, and RDTC in the order LO, MID,
HI responds 0x00000807, a temperature the device held at neither time. -/
def Obligations.TornReadingOfTheSpec : Prop :=
  ∀ (s : State) (more : List Answer), s.inflight = none → s.config.tcReadOrder = .loMidHi →
    s.answers = .ok 0xE0 :: .ok 0x00 :: .ok 0x01 :: more →
    ∃ t : State, exec .rdtc s = .next t ∧ t.responses = s.responses ++ [.ok 0x00000807] ∧
      tcCelsius 0x00000807 = 16.0546875 ∧
      decodeTc 0xE0 0xFF 0x00 ≠ 0x00000807 ∧ decodeTc 0x00 0x00 0x01 ≠ 0x00000807

/-! ## The bus, responses and errors -/

/-- The bus trace of a command (R39, R41): what a command adds to the trace are the first n transactions of
its rule, in the rule's order, each once, with none before it has been answered; every event but the last
was answered Ok; and when the command responded OK they are all of them. A transaction that is issued and not
answered is not among the events: it stands in the command in flight, the model's choice (log entry 17). -/
def Obligations.BusTraceFollowsTheRule : Prop :=
  ∀ (i : Instr) (s t : State), exec i s = .next t →
    ∃ (n : Nat) (evs : List BusEvent), t.trace = s.trace ++ evs ∧
      evs.map requestIn = ((txnsOf s.config i).map requestOf).take n ∧
      (∀ ev ∈ evs.dropLast, errorIn ev = none) ∧
      (∀ r, t.responses = s.responses ++ [.ok r] →
        evs.map requestIn = (txnsOf s.config i).map requestOf)

/-- One response for each command (R15, R24): a command that is performed ends with exactly one response and
an idle block, or the block is busy with that command and no response has been made. -/
def Obligations.OneResponsePerCommand : Prop :=
  ∀ (i : Instr) (s t : State), exec i s = .next t →
    (t.inflight = none ∧ ∃ r, t.responses = s.responses ++ [r]) ∨
    (∃ f, t.inflight = some f ∧ f.cmd = i ∧ t.responses = s.responses)

/-- Success is STATUS = OK and only that (R100): of a command that has responded, STATUS is OK exactly when
no transaction of it failed, and otherwise the response is TRANSPORT_ERROR with the e of its last
transaction, the first that failed (R82, R85, R86). -/
def Obligations.StatusTellsFailureFromSuccess : Prop :=
  ∀ (i : Instr) (s t : State) (r : Response) (evs : List BusEvent), exec i s = .next t →
    t.responses = s.responses ++ [r] → t.trace = s.trace ++ evs →
    (statusOf r = 0 ↔ ∀ ev ∈ evs, errorIn ev = none) ∧
    (statusOf r ≠ 0 → ∃ e, r = .transportError e ∧ evs.getLast?.bind errorIn = some e)

/-- The result formats (R61): the RESULT of every command that responds OK, by command. -/
def Obligations.ResultsHaveTheirFormat : Prop :=
  ∀ (i : Instr) (s t : State) (r : Word), exec i s = .next t →
    t.responses = s.responses ++ [.ok r] →
    match i with
    | .rdreg _ => ∃ data : Byte, r = data.zeroExtend 32
    | .wrreg _ _ => r = 0x00000000
    | .dectc _ _ _ => (∃ f : BitVec 19, r = f.signExtend 32) ∧ -262144 ≤ r.toInt ∧ r.toInt ≤ 262143
    | .rdtc => (∃ f : BitVec 19, r = f.signExtend 32) ∧ -262144 ≤ r.toInt ∧ r.toInt ≤ 262143
    | .deccj _ _ => (∃ q : BitVec 16, r = q.signExtend 32) ∧ -32768 ≤ r.toInt ∧ r.toInt ≤ 32764 ∧
        (r.extractLsb' 0 2 : BitVec 2) = 0
    | .rdcj => (∃ q : BitVec 16, r = q.signExtend 32) ∧ -32768 ≤ r.toInt ∧ r.toInt ≤ 32764 ∧
        (r.extractLsb' 0 2 : BitVec 2) = 0

/-- The packed response (R60): its STATUS codes, RESULT with OK only, TERR with a transport error only, code 3
never produced; and the host reads back what was packed. -/
def Obligations.PackedResponsesReadBack : Prop :=
  (∀ r : Word, packResponse (.ok r) = ⟨0, some r, none⟩) ∧
  (∀ e : TransportError, packResponse (.transportError e) = ⟨1, none, some e⟩) ∧
  packResponse .illegalCmd = ⟨2, none, none⟩ ∧
  ∀ r : Response, (packResponse r).status ≠ 3 ∧
    ((packResponse r).status ≠ 0 → (packResponse r).result = none) ∧
    ∃ r', unpackResponse (packResponse r) = .ok r' ∧ r' = r

/-- Raising an exception (R93, R94): the command's response is the error response with no result, the block
becomes idle, and nothing else changes. -/
def Obligations.RaisingEndsTheCommand : Prop :=
  (∀ (e : TransportError) (s : State), raise (.transportError e) s =
    { s with inflight := none, responses := s.responses ++ [.transportError e] }) ∧
  (∀ s : State, raise .illegalCommand s =
    { s with inflight := none, responses := s.responses ++ [.illegalCmd] })

/-- Transport errors are passed on unread (R86, 93_implementation_defined.md U12): renaming every transport
error of a state by any function commutes with a step. -/
def Obligations.TransportErrorsAreNeverInterpreted : Prop :=
  ∀ (g : TransportError → TransportError) (s : State),
    step (renameErrors g s) = mapState (renameErrors g) (step s)

/-- No history (R17, R72, R84, R95): what a command does to two idle blocks with the same parameters is a
function of the command and of the answers to its transactions. With the same answers to come, the same
events and responses are added, the same answers used up, the same command left in flight, whatever either
block did before; and once it responds, the answers after those it used up made no difference. -/
def Obligations.CommandsDoNotDependOnHistory : Prop :=
  (∀ (i : Instr) (s s' t : State), s'.config = s.config → s'.inflight = s.inflight →
    s'.answers = s.answers → exec i s = .next t →
    ∃ (t' : State) (evs : List BusEvent) (rs : List Response), exec i s' = .next t' ∧
      t.trace = s.trace ++ evs ∧ t'.trace = s'.trace ++ evs ∧
      t.responses = s.responses ++ rs ∧ t'.responses = s'.responses ++ rs ∧
      t'.inflight = t.inflight ∧ t'.answers = t.answers) ∧
  (∀ (i : Instr) (s s' t : State) (used rest : List Answer), s'.config = s.config →
    s'.inflight = s.inflight → exec i s = .next t → t.inflight = none →
    s.answers = used ++ t.answers → s'.answers = used ++ rest →
    ∃ (t' : State) (evs : List BusEvent) (r : Response), exec i s' = .next t' ∧
      t.trace = s.trace ++ evs ∧ t'.trace = s'.trace ++ evs ∧
      t.responses = s.responses ++ [r] ∧ t'.responses = s'.responses ++ [r] ∧
      t'.inflight = none ∧ t'.answers = rest)

/-- The frame of every command: the parameters and what the host will do are unchanged; events and responses
are only added; answers are only used up, one for each event and one more when the block waits (the delay of
log entry 2). That a waiting block has added no event for its unanswered transaction is the model's choice
(log entry 17). -/
def Obligations.CommandsOnlyAddAndUseUp : Prop :=
  ∀ (i : Instr) (s t : State), exec i s = .next t →
    t.config = s.config ∧ t.host = s.host ∧
    (∃ evs, t.trace = s.trace ++ evs ∧ evs.length ≤ 3 ∧
      ∃ used, s.answers = used ++ t.answers ∧ evs.length ≤ used.length ∧
        used.length ≤ evs.length + 1 ∧ (t.inflight = none → used.length = evs.length)) ∧
    (∃ rs, t.responses = s.responses ++ rs ∧ rs.length ≤ 1)

/-! ## The step, reset, and the host -/

/-- A step runs the decoded command: an idle block that is presented a word which decodes to a command
performs it, with the word taken from the host's side and nothing else around it (R54, R111). -/
def Obligations.StepRunsTheDecodedCommand : Prop :=
  ∀ (s : State) (w : Word) (early : Bool) (more : List HostEvent) (i : Instr),
    s.inflight = none → s.host = .command w early :: more → decode w = .ok i →
    step s = exec i { s with host := more }

/-- A busy block (R103, R111; 93_implementation_defined.md U6, U7): a command or a reset driven at it is
refused; and an idle block refuses no command for its content. An event driven without waiting (`early`) is
the model's form of that input (log entry 4). -/
def Obligations.BusyBlockRefusesIdleBlockAccepts : Prop :=
  (∀ (i : Instr) (s : State) (f : Flight), s.inflight = some f →
    exec i s = .refused .commandWhileBusy) ∧
  (∀ (s : State) (f : Flight) (w : Word) (more : List HostEvent), s.inflight = some f →
    s.host = .command w true :: more → step s = .refused .commandWhileBusy) ∧
  (∀ (s : State) (f : Flight) (more : List HostEvent), s.inflight = some f →
    s.host = .reset true :: more → step s = .refused .resetWhileBusy) ∧
  (∀ (s : State), s.inflight = none → ∃ t, step s = .next t)

/-- A host that keeps to R111 waits: at a busy block its next event is held, and the command in flight goes
on; a delay of the transport (the model's `later`, log entry 2) passes without any other change. -/
def Obligations.BusyBlockGoesOnWithItsCommand : Prop :=
  (∀ (s : State) (f : Flight), s.inflight = some f → HostKeepsProtocol s → step s = resume f s) ∧
  (∀ (s : State) (f : Flight) (more : List Answer), s.inflight = some f → HostKeepsProtocol s →
    s.answers = .later :: more → step s = .next { s with answers := more })

/-- Reset (R27, R101): right after reset the block is idle, no command is in flight, and whichever of the six
commands the host presents to it, with nothing else of the reset state changed, is accepted and performed. -/
def Obligations.ResetLeavesTheBlockIdle : Prop :=
  State.reset.inflight = none ∧
  ∀ (i : Instr) (early : Bool), ∃ t,
    step { State.reset with host := [.command (encode i) early] } = .next t ∧
    exec i State.reset = .next t

/-- The reset event (R102, R104): its only effect is that the block is idle; the bus, the environment and the
parameters are left alone and no response is made. -/
def Obligations.ResetEventSendsNothing : Prop :=
  ∀ (s : State) (early : Bool) (more : List HostEvent), s.inflight = none →
    s.host = .reset early :: more → step s = .next { s with host := more }

/-- An idle block to which nothing is presented stays as it is: the model's reading of R99 (log entry 13). -/
def Obligations.IdleBlockRests : Prop :=
  ∀ s : State, s.inflight = none → s.host = [] → step s = .next s

/-- The parameters do not change while the block runs (R105). -/
def Obligations.ParametersNeverChange : Prop :=
  ∀ s t : State, step s = .next t → t.config = s.config

/-- The invariant holds at reset. -/
def Obligations.InvariantAtReset : Prop := Inv State.reset

/-- Every step keeps the invariant: the parameters stay well formed, and a command in flight is at every
moment exactly part of the way through the transactions of its rule, with exactly the temporaries written
whose reads have been answered (R9, R23, R39, R41). -/
def Obligations.StepKeepsTheInvariant : Prop :=
  ∀ s t : State, Inv s → step s = .next t → Inv t

/-- No temporary is read unwritten (R23): from a state that meets the invariant, neither a step nor a command
faults. -/
def Obligations.NoUnwrittenTemporaryIsRead : Prop :=
  ∀ s : State, Inv s → (∀ r, step s ≠ .fault r) ∧ ∀ (i : Instr) (r : Fault), exec i s ≠ .fault r

/-- A host that keeps to R111 never meets a stop: from a state that meets the invariant, a run of any length
goes on, whatever words the host presents and whatever the transport answers. Where the transport never
returns and where an idle block is presented nothing, the run goes on only by the model's steps to the same
state (log entries 3 and 13); the spec calls the first of these stuck
(93_implementation_defined.md U10). -/
def Obligations.ProtocolKeepingRunsNeverStop : Prop :=
  ∀ s : State, Inv s → HostKeepsProtocol s →
    ∀ k : Nat, ∃ t : State, core.run k s = .next t ∧ Inv t ∧ HostKeepsProtocol t

/-- A transaction that the transport has not answered yet (R24, R38, R41 b): the command is in flight, with
that transaction outstanding and the later ones not issued; the ones before it are in the trace, and no
response is made. The answer that is not there yet is the model's `later` (log entry 2), and that the
outstanding transaction is not yet in the trace is its choice too (log entry 17). -/
def Obligations.UnansweredCommandIsInFlight : Prop :=
  ∀ (i : Instr) (s : State) (ds : List Byte) (x : Txn) (more : List Answer), s.inflight = none →
    (txnsOf s.config i)[ds.length]? = some x → s.answers = ds.map Answer.ok ++ .later :: more →
    ∃ (t : State) (f : Flight), exec i s = .next t ∧ t.inflight = some f ∧ FlightOk t.config f ∧
      f.cmd = i ∧ f.outstanding = x ∧ f.rest = (txnsOf s.config i).drop (ds.length + 1) ∧
      t.answers = more ∧ t.responses = s.responses ∧
      ∃ evs, t.trace = s.trace ++ evs ∧
        evs.map requestIn = ((txnsOf s.config i).map requestOf).take ds.length

/-- A transport that never answers (R110): a command whose transaction is outstanding with no answer to come
never responds, the block stays busy for ever, and no later command is accepted; and every command that
uses the bus comes to that state when the transport does not answer it. That a stuck block takes steps, to the
same state, is the model's choice (log entry 3). -/
def Obligations.SilentTransportHangsTheBlock : Prop :=
  (∀ (s : State) (f : Flight), s.inflight = some f → s.answers = [] → HostKeepsProtocol s →
    ∀ k : Nat, core.run k s = .next s) ∧
  (∀ (i : Instr) (s : State) (ds : List Byte), s.inflight = none →
    ds.length < (txnsOf s.config i).length → s.answers = ds.map Answer.ok →
    ∃ (t : State) (f : Flight), exec i s = .next t ∧ t.inflight = some f ∧ t.answers = [] ∧
      t.responses = s.responses)

/-- The only liveness fact (R113): every command issues at most three transactions, and if every transaction
it issues returns, at once or after any delays, it responds after finitely many steps. A delay, an item
`later` in the answers, is the model's form of an answer that takes time (log entry 2). -/
def Obligations.AnsweredCommandsRespond : Prop :=
  (∀ (p : Config.Params) (i : Instr), (txnsOf p i).length ≤ 3) ∧
  ∀ (i : Instr) (s : State), s.inflight = none → HostKeepsProtocol s →
    (txnsOf s.config i).length ≤ (prompt s.answers).length →
    ∃ (u v : State) (k : Nat), exec i s = .next u ∧ core.run k u = .next v ∧
      v.inflight = none ∧ ∃ r, v.responses = s.responses ++ [r]

/-- Delays change nothing but the time (R41 b, R113): what a command does when the transport answers with any
delays is what it does when the same answers come at once. The delays are the model's form of an answer that
takes time (log entry 2). -/
def Obligations.DelaysDoNotChangeTheOutcome : Prop :=
  ∀ (i : Instr) (s t : State), s.inflight = none → HostKeepsProtocol s →
    exec i { s with answers := prompt s.answers } = .next t → t.inflight = none →
    ∃ (u v : State) (k : Nat), exec i s = .next u ∧ core.run k u = .next v ∧
      v.inflight = none ∧ v.trace = t.trace ∧ v.responses = t.responses ∧
      prompt v.answers = t.answers ∧ v.config = t.config ∧ v.host = t.host
end

