-- ==== Sys2Proof/Laws/Words.lean ====
section
/-! SUPPORT. Concatenation and slices as arithmetic on numbers, for every width; the lanes of a command word;
and what it means for a word to select a row of the opcode map, by its lanes. -/

namespace Sys2Proof.Laws

/-- {a, b} as a number (R11). -/
theorem toNat_concat {n m : Nat} (a : BitVec n) (b : BitVec m) :
    (a ++ b).toNat = a.toNat * 2 ^ m + b.toNat := by
  rw [BitVec.toNat_append, ← Nat.shiftLeft_add_eq_or_of_lt b.isLt, Nat.shiftLeft_eq]

/-- v[lo + n - 1 : lo] as a number (R10). -/
theorem toNat_slice {m : Nat} (v : BitVec m) (lo n : Nat) :
    (v.extractLsb' lo n).toNat = v.toNat / 2 ^ lo % 2 ^ n := by
  rw [BitVec.extractLsb'_toNat, Nat.shiftRight_eq_div_pow]

/-- A packed word as a number. -/
theorem toNat_packLanes (opc b2 b1 b0 : Byte) :
    (packLanes opc b2 b1 b0).toNat
      = opc.toNat * 16777216 + b2.toNat * 65536 + b1.toNat * 256 + b0.toNat := by
  have h : (packLanes opc b2 b1 b0).toNat = (opc ++ b2 ++ b1 ++ b0).toNat := rfl
  rw [h, toNat_concat, toNat_concat, toNat_concat]
  omega

@[simp] theorem opcodeOf_packLanes (opc b2 b1 b0 : Byte) : opcodeOf (packLanes opc b2 b1 b0) = opc := by
  apply BitVec.eq_of_toNat_eq
  rw [opcodeOf, toNat_slice, toNat_packLanes]
  omega

@[simp] theorem laneB2_packLanes (opc b2 b1 b0 : Byte) : laneB2 (packLanes opc b2 b1 b0) = b2 := by
  apply BitVec.eq_of_toNat_eq
  rw [laneB2, toNat_slice, toNat_packLanes]
  omega

@[simp] theorem laneB1_packLanes (opc b2 b1 b0 : Byte) : laneB1 (packLanes opc b2 b1 b0) = b1 := by
  apply BitVec.eq_of_toNat_eq
  rw [laneB1, toNat_slice, toNat_packLanes]
  omega

@[simp] theorem laneB0_packLanes (opc b2 b1 b0 : Byte) : laneB0 (packLanes opc b2 b1 b0) = b0 := by
  apply BitVec.eq_of_toNat_eq
  rw [laneB0, toNat_slice, toNat_packLanes]
  omega

/-- A word is its four lanes. -/
@[simp] theorem packLanes_lanes (w : Word) :
    packLanes (opcodeOf w) (laneB2 w) (laneB1 w) (laneB0 w) = w := by
  apply BitVec.eq_of_toNat_eq
  rw [toNat_packLanes, opcodeOf, laneB2, laneB1, laneB0, toNat_slice, toNat_slice, toNat_slice,
    toNat_slice]
  omega

theorem packLanes_inj {opc b2 b1 b0 opc' b2' b1' b0' : Byte} :
    packLanes opc b2 b1 b0 = packLanes opc' b2' b1' b0' ↔
      opc = opc' ∧ b2 = b2' ∧ b1 = b1' ∧ b0 = b0' := by
  constructor
  · intro h
    exact ⟨by simpa using congrArg opcodeOf h, by simpa using congrArg laneB2 h,
      by simpa using congrArg laneB1 h, by simpa using congrArg laneB0 h⟩
  · rintro ⟨rfl, rfl, rfl, rfl⟩; rfl

/-- A packed word under a mask of lanes. -/
theorem packLanes_and (opc b2 b1 b0 m3 m2 m1 m0 : Byte) :
    packLanes opc b2 b1 b0 &&& packLanes m3 m2 m1 m0
      = packLanes (opc &&& m3) (b2 &&& m2) (b1 &&& m1) (b0 &&& m0) :=
  show (opc ++ b2 ++ b1 ++ b0 : BitVec (8 + 8 + 8 + 8)) &&& (m3 ++ m2 ++ m1 ++ m0) = _ by
    rw [BitVec.and_append, BitVec.and_append, BitVec.and_append]; rfl

/-- A lane that the mask drops. -/
theorem lane_and_zero (b : Byte) : b &&& 0x00 = 0x00 := BitVec.and_zero

/-- A lane that the mask keeps. -/
theorem lane_and_ones (b : Byte) : b &&& 0xFF = b :=
  (congrArg (b &&& ·) (show (0xFF : Byte) = BitVec.allOnes 8 by decide)).trans BitVec.and_allOnes

/-- Selecting a row (R49), lane by lane. -/
theorem selects_iff (r : Row) (w : Word) {p3 p2 p1 p0 m3 m2 m1 m0 : Byte}
    (hp : r.pattern = packLanes p3 p2 p1 p0) (hm : r.mask = packLanes m3 m2 m1 m0) :
    r.selects w = true ↔
      opcodeOf w &&& m3 = p3 ∧ laneB2 w &&& m2 = p2 ∧ laneB1 w &&& m1 = p1 ∧ laneB0 w &&& m0 = p0 := by
  rw [Row.selects, beq_iff_eq, hp, hm]
  conv_lhs => rw [← packLanes_lanes w, packLanes_and]
  exact packLanes_inj

theorem rowRdreg_selects (w : Word) :
    rowRdreg.selects w = true ↔ opcodeOf w = 0x01 ∧ laneB2 w = 0 ∧ laneB0 w = 0 := by
  rw [selects_iff rowRdreg w (p3 := 1) (p2 := 0) (p1 := 0) (p0 := 0) (m3 := 0xFF) (m2 := 0xFF) (m1 := 0)
    (m0 := 0xFF) (by decide) (by decide), lane_and_ones, lane_and_ones, lane_and_ones, lane_and_zero]
  simp

theorem rowWrreg_selects (w : Word) :
    rowWrreg.selects w = true ↔ opcodeOf w = 0x02 ∧ laneB2 w = 0 := by
  rw [selects_iff rowWrreg w (p3 := 2) (p2 := 0) (p1 := 0) (p0 := 0) (m3 := 0xFF) (m2 := 0xFF) (m1 := 0)
    (m0 := 0) (by decide) (by decide), lane_and_ones, lane_and_ones, lane_and_zero, lane_and_zero]
  simp

theorem rowDectc_selects (w : Word) : rowDectc.selects w = true ↔ opcodeOf w = 0x03 := by
  rw [selects_iff rowDectc w (p3 := 3) (p2 := 0) (p1 := 0) (p0 := 0) (m3 := 0xFF) (m2 := 0) (m1 := 0)
    (m0 := 0) (by decide) (by decide), lane_and_ones, lane_and_zero, lane_and_zero, lane_and_zero]
  simp

theorem rowDeccj_selects (w : Word) :
    rowDeccj.selects w = true ↔ opcodeOf w = 0x04 ∧ laneB2 w = 0 := by
  rw [selects_iff rowDeccj w (p3 := 4) (p2 := 0) (p1 := 0) (p0 := 0) (m3 := 0xFF) (m2 := 0xFF) (m1 := 0)
    (m0 := 0) (by decide) (by decide), lane_and_ones, lane_and_ones, lane_and_zero, lane_and_zero]
  simp

theorem rowRdtc_selects (w : Word) :
    rowRdtc.selects w = true ↔ opcodeOf w = 0x05 ∧ laneB2 w = 0 ∧ laneB1 w = 0 ∧ laneB0 w = 0 := by
  rw [selects_iff rowRdtc w (p3 := 5) (p2 := 0) (p1 := 0) (p0 := 0) (m3 := 0xFF) (m2 := 0xFF) (m1 := 0xFF)
    (m0 := 0xFF) (by decide) (by decide), lane_and_ones, lane_and_ones, lane_and_ones, lane_and_ones]

theorem rowRdcj_selects (w : Word) :
    rowRdcj.selects w = true ↔ opcodeOf w = 0x06 ∧ laneB2 w = 0 ∧ laneB1 w = 0 ∧ laneB0 w = 0 := by
  rw [selects_iff rowRdcj w (p3 := 6) (p2 := 0) (p1 := 0) (p0 := 0) (m3 := 0xFF) (m2 := 0xFF) (m1 := 0xFF)
    (m0 := 0xFF) (by decide) (by decide), lane_and_ones, lane_and_ones, lane_and_ones, lane_and_ones]

end Sys2Proof.Laws
end

