-- ==== Sys2Proof/Laws/Decoders.lean ====
section
/-! SUPPORT. The decoders with their widths as numerals, and their fields as numbers. -/

namespace Sys2Proof.Laws

open Sys2Proof.Machine

theorem decodeTc_eq (low mid high : Byte) :
    decodeTc low mid high
      = ((high ++ mid ++ low : BitVec 24).extractLsb' 5 19 : BitVec 19).signExtend 32 := rfl

theorem decodeCj_eq (low high : Byte) :
    decodeCj low high
      = ((((high ++ low : BitVec 16).extractLsb' 2 14 : BitVec 14) ++ 0#2 : BitVec 16)).signExtend 32 := rfl

theorem tcCelsius_eq (r : Word) : tcCelsius r = (r.toInt : Rat) / 2 ^ 7 := rfl

theorem cjCelsius_eq (r : Word) : cjCelsius r = (r.toInt : Rat) / 2 ^ 8 := rfl

/-- W24 as a number. -/
theorem toNat_tcWord (low mid high : Byte) :
    (high ++ mid ++ low : BitVec 24).toNat = high.toNat * 65536 + mid.toNat * 256 + low.toNat := by
  have h : (high ++ mid ++ low : BitVec 24).toNat = (high ++ mid ++ low).toNat := rfl
  rw [h, toNat_concat, toNat_concat]
  omega

/-- W16 as a number. -/
theorem toNat_cjWord (low high : Byte) :
    (high ++ low : BitVec 16).toNat = high.toNat * 256 + low.toNat := by
  have h : (high ++ low : BitVec 16).toNat = (high ++ low).toNat := rfl
  rw [h, toNat_concat]
  omega

/-- F19 as a number. -/
theorem toNat_tcField (low mid high : Byte) :
    ((high ++ mid ++ low : BitVec 24).extractLsb' 5 19 : BitVec 19).toNat
      = (high.toNat * 65536 + mid.toNat * 256 + low.toNat) / 32 := by
  rw [toNat_slice, toNat_tcWord]
  omega

/-- F14 as a number. -/
theorem toNat_cjField (low high : Byte) :
    ((high ++ low : BitVec 16).extractLsb' 2 14 : BitVec 14).toNat = (high.toNat * 256 + low.toNat) / 4 := by
  rw [toNat_slice, toNat_cjWord]
  omega

/-- Q8 as a number. -/
theorem toNat_cjQ8 (low high : Byte) :
    (((high ++ low : BitVec 16).extractLsb' 2 14 : BitVec 14) ++ 0#2 : BitVec 16).toNat
      = (high.toNat * 256 + low.toNat) / 4 * 4 := by
  have h : (((high ++ low : BitVec 16).extractLsb' 2 14 : BitVec 14) ++ 0#2 : BitVec 16).toNat
    = (((high ++ low : BitVec 16).extractLsb' 2 14 : BitVec 14) ++ 0#2).toNat := rfl
  rw [h, toNat_concat, toNat_cjField]
  simp

/-- Dropping the two low bits and appending two zeros is masking them (R57). -/
theorem mask_low_two (w : BitVec 16) :
    w &&& 0xFFFC = ((w.extractLsb' 2 14 : BitVec 14) ++ 0#2 : BitVec 16) := by
  apply BitVec.eq_of_getLsbD_eq
  intro i hi
  have h : ((w.extractLsb' 2 14 : BitVec 14) ++ 0#2 : BitVec 16).getLsbD i
    = ((w.extractLsb' 2 14 : BitVec 14) ++ 0#2).getLsbD i := rfl
  have hm : (0xFFFC : BitVec 16).getLsbD i = decide (2 ≤ i) := by
    clear h; revert i; decide
  rw [h, BitVec.getLsbD_append, BitVec.getLsbD_and, hm]
  by_cases h2 : i < 2
  · simp [h2, Nat.not_le.mpr h2]
  · have h3 : 2 ≤ i := Nat.not_lt.mp h2
    have h4 : 2 + (i - 2) = i := by omega
    have h5 : i - 2 < 14 := by omega
    simp only [h2, h3, decide_true, Bool.and_true, BitVec.getLsbD_extractLsb', h4, h5, Bool.true_and,
      if_false]

end Sys2Proof.Laws
end

