-- ==== Sys2Proof/Laws/State.lean ====
section
/-! SUPPORT. One lemma per field for each operation that updates the state, true by definition, so that no
later proof unfolds a record update. -/

namespace Sys2Proof.Laws

open Sys2Proof.Machine

@[simp] theorem respond_config (r : Response) (s : State) : (respond r s).config = s.config := rfl
@[simp] theorem respond_inflight (r : Response) (s : State) : (respond r s).inflight = none := rfl
@[simp] theorem respond_host (r : Response) (s : State) : (respond r s).host = s.host := rfl
@[simp] theorem respond_answers (r : Response) (s : State) : (respond r s).answers = s.answers := rfl
@[simp] theorem respond_trace (r : Response) (s : State) : (respond r s).trace = s.trace := rfl
@[simp] theorem respond_responses (r : Response) (s : State) :
    (respond r s).responses = s.responses ++ [r] := rfl

@[simp] theorem raise_config (x : Exn) (s : State) : (raise x s).config = s.config := rfl
@[simp] theorem raise_inflight (x : Exn) (s : State) : (raise x s).inflight = none := rfl
@[simp] theorem raise_host (x : Exn) (s : State) : (raise x s).host = s.host := rfl
@[simp] theorem raise_answers (x : Exn) (s : State) : (raise x s).answers = s.answers := rfl
@[simp] theorem raise_trace (x : Exn) (s : State) : (raise x s).trace = s.trace := rfl
@[simp] theorem raise_responses (x : Exn) (s : State) :
    (raise x s).responses = s.responses ++ [x.response] := rfl

@[simp] theorem answered_config (ev : BusEvent) (more : List Answer) (s : State) :
    (answered ev more s).config = s.config := rfl
@[simp] theorem answered_inflight (ev : BusEvent) (more : List Answer) (s : State) :
    (answered ev more s).inflight = s.inflight := rfl
@[simp] theorem answered_host (ev : BusEvent) (more : List Answer) (s : State) :
    (answered ev more s).host = s.host := rfl
@[simp] theorem answered_answers (ev : BusEvent) (more : List Answer) (s : State) :
    (answered ev more s).answers = more := rfl
@[simp] theorem answered_trace (ev : BusEvent) (more : List Answer) (s : State) :
    (answered ev more s).trace = s.trace ++ [ev] := rfl
@[simp] theorem answered_responses (ev : BusEvent) (more : List Answer) (s : State) :
    (answered ev more s).responses = s.responses := rfl

@[simp] theorem stayBusy_config (f : Flight) (more : List Answer) (s : State) :
    (stayBusy f more s).config = s.config := rfl
@[simp] theorem stayBusy_inflight (f : Flight) (more : List Answer) (s : State) :
    (stayBusy f more s).inflight = some f := rfl
@[simp] theorem stayBusy_host (f : Flight) (more : List Answer) (s : State) :
    (stayBusy f more s).host = s.host := rfl
@[simp] theorem stayBusy_answers (f : Flight) (more : List Answer) (s : State) :
    (stayBusy f more s).answers = more := rfl
@[simp] theorem stayBusy_trace (f : Flight) (more : List Answer) (s : State) :
    (stayBusy f more s).trace = s.trace := rfl
@[simp] theorem stayBusy_responses (f : Flight) (more : List Answer) (s : State) :
    (stayBusy f more s).responses = s.responses := rfl

@[simp] theorem resetBlock_config (s : State) : (resetBlock s).config = s.config := rfl
@[simp] theorem resetBlock_inflight (s : State) : (resetBlock s).inflight = none := rfl
@[simp] theorem resetBlock_host (s : State) : (resetBlock s).host = s.host := rfl
@[simp] theorem resetBlock_answers (s : State) : (resetBlock s).answers = s.answers := rfl
@[simp] theorem resetBlock_trace (s : State) : (resetBlock s).trace = s.trace := rfl
@[simp] theorem resetBlock_responses (s : State) : (resetBlock s).responses = s.responses := rfl

@[simp] theorem present_config (w : Word) (s : State) : (present w s).config = s.config := rfl
@[simp] theorem present_inflight (w : Word) (s : State) : (present w s).inflight = none := rfl
@[simp] theorem present_host (w : Word) (s : State) :
    (present w s).host = .command w false :: s.host := rfl
@[simp] theorem present_answers (w : Word) (s : State) : (present w s).answers = s.answers := rfl
@[simp] theorem present_trace (w : Word) (s : State) : (present w s).trace = s.trace := rfl
@[simp] theorem present_responses (w : Word) (s : State) : (present w s).responses = s.responses := rfl

@[simp] theorem get_put_same (temps : Temps) (x : Temp) (d : Byte) : (temps.put x d).get x = some d := by
  cases x <;> rfl

theorem get_put_other (temps : Temps) {x y : Temp} (h : x ≠ y) (d : Byte) :
    (temps.put x d).get y = temps.get y := by
  cases x <;> cases y <;> first | rfl | exact absurd rfl h

@[simp] theorem get_empty (x : Temp) : ({} : Temps).get x = none := by cases x <;> rfl

end Sys2Proof.Laws
end

