-- ==== Sys2Proof/Laws/Ops.lean ====
section
/-! SUPPORT. What each shared operation can do, said once: the equations of `transact`, its inversion, the one
form that every meaning has on an idle block, and the cases of `step`. -/

namespace Sys2Proof.Laws

open Sys2Proof.Machine

variable {s t : State} {i : Instr}

/-! The equations of `transact`. -/

theorem transact_nil (cmd : Instr) (temps : Temps) (s : State) :
    transact cmd temps [] s = finish cmd temps s := rfl

theorem transact_silent (cmd : Instr) (temps : Temps) (x : Txn) (xs : List Txn) (h : s.answers = []) :
    transact cmd temps (x :: xs) s = .next (stayBusy ⟨cmd, temps, x, xs⟩ [] s) := by
  simp only [transact, h]

theorem transact_later (cmd : Instr) (temps : Temps) (x : Txn) (xs : List Txn) {more : List Answer}
    (h : s.answers = .later :: more) :
    transact cmd temps (x :: xs) s = .next (stayBusy ⟨cmd, temps, x, xs⟩ more s) := by
  simp only [transact, h]

theorem transact_err (cmd : Instr) (temps : Temps) (x : Txn) (xs : List Txn) {e : TransportError}
    {more : List Answer} (h : s.answers = .err e :: more) :
    transact cmd temps (x :: xs) s
      = .next (raise (.transportError e) (answered (x.errEvent e) more s)) := by
  simp only [transact, h]

theorem transact_ok (cmd : Instr) (temps : Temps) (x : Txn) (xs : List Txn) {d : Byte}
    {more : List Answer} (h : s.answers = .ok d :: more) :
    transact cmd temps (x :: xs) s
      = transact cmd (x.store temps d) xs (answered (x.okEvent d) more s) := by
  simp only [transact, h]

/-- Everything that one round of `transact` can do. -/
theorem transact_cases (cmd : Instr) (temps : Temps) (x : Txn) (xs : List Txn) (s : State) :
    (s.answers = [] ∧ transact cmd temps (x :: xs) s = .next (stayBusy ⟨cmd, temps, x, xs⟩ [] s)) ∨
    (∃ more, s.answers = .later :: more ∧
      transact cmd temps (x :: xs) s = .next (stayBusy ⟨cmd, temps, x, xs⟩ more s)) ∨
    (∃ e more, s.answers = .err e :: more ∧ transact cmd temps (x :: xs) s
      = .next (raise (.transportError e) (answered (x.errEvent e) more s))) ∨
    (∃ d more, s.answers = .ok d :: more ∧ transact cmd temps (x :: xs) s
      = transact cmd (x.store temps d) xs (answered (x.okEvent d) more s)) := by
  match h : s.answers with
  | [] => exact .inl ⟨rfl, transact_silent cmd temps x xs h⟩
  | .later :: more => exact .inr (.inl ⟨more, rfl, transact_later cmd temps x xs h⟩)
  | .err e :: more => exact .inr (.inr (.inl ⟨e, more, rfl, transact_err cmd temps x xs h⟩))
  | .ok d :: more => exact .inr (.inr (.inr ⟨d, more, rfl, transact_ok cmd temps x xs h⟩))

/-- A command that comes to its result responds OK with it, or stops with the one fault. -/
theorem finish_cases (cmd : Instr) (temps : Temps) (s : State) :
    (∃ r, resultOf cmd temps = some r ∧ finish cmd temps s = .next (respond (.ok r) s)) ∨
    (resultOf cmd temps = none ∧ finish cmd temps s = .fault .unwrittenTemporary) := by
  unfold finish
  split <;> simp_all

/-- The block refuses nothing while it goes through its transactions. -/
theorem transact_not_refused (cmd : Instr) (txns : List Txn) :
    ∀ (temps : Temps) (s : State) (r : Refusal), transact cmd temps txns s ≠ .refused r := by
  induction txns with
  | nil =>
    intro temps s r
    rcases finish_cases cmd temps s with ⟨_, _, h⟩ | ⟨_, h⟩ <;> simp [transact_nil, h]
  | cons x xs ih =>
    intro temps s r
    rcases transact_cases cmd temps x xs s with ⟨_, h⟩ | ⟨_, _, h⟩ | ⟨_, _, _, h⟩ | ⟨d, more, _, h⟩
    · simp [h]
    · simp [h]
    · simp [h]
    · rw [h]; exact ih _ _ r

/-! The meanings. -/

theorem accept_idle (h : s.inflight = none) (body : Host.Outcome State Fault Refusal) :
    accept s body = body := by
  simp only [accept, h]

theorem accept_busy {f : Flight} (h : s.inflight = some f) (body : Host.Outcome State Fault Refusal) :
    accept s body = .refused .commandWhileBusy := by
  simp only [accept, h]

/-- The one form of every meaning on an idle block: the transactions of its rule, nothing read before. -/
theorem exec_idle (h : s.inflight = none) (i : Instr) :
    exec i s = transact i {} (txnsOf s.config i) s := by
  cases i <;> simp only [exec, execRdreg, execWrreg, execDectc, execDeccj, execRdtc, execRdcj,
    accept_idle h, txnsOf] <;> rfl

/-- Everything that makes up a command that is performed: the block was idle. -/
theorem exec_next_idle (h : exec i s = .next t) : s.inflight = none := by
  cases hf : s.inflight with
  | none => rfl
  | some f =>
    cases i <;> simp [exec, execRdreg, execWrreg, execDectc, execDeccj, execRdtc, execRdcj,
      accept_busy hf] at h

/-- No command is accepted by a busy block. -/
theorem exec_busy {f : Flight} (h : s.inflight = some f) (i : Instr) :
    exec i s = .refused .commandWhileBusy := by
  cases i <;> simp only [exec, execRdreg, execWrreg, execDectc, execDeccj, execRdtc, execRdcj,
    accept_busy h]

/-! The step. -/

theorem fetch_idle_command (hi : s.inflight = none) {w : Word} {early : Bool} {more : List HostEvent}
    (hh : s.host = .command w early :: more) : fetch s = .command w { s with host := more } := by
  simp only [fetch, hi, hh]

theorem fetch_present (w : Word) (s : State) :
    fetch (present w s) = .command w { s with inflight := none } := by
  simp [fetch, present]

/-- Everything that a step can do. -/
theorem step_cases (s : State) :
    (s.inflight = none ∧ s.host = [] ∧ step s = .next s) ∨
    (∃ early more, s.inflight = none ∧ s.host = .reset early :: more ∧
      step s = .next { s with inflight := none, host := more }) ∨
    (∃ w early more i, s.inflight = none ∧ s.host = .command w early :: more ∧ decode w = .ok i ∧
      step s = exec i { s with host := more }) ∨
    (∃ w early more e, s.inflight = none ∧ s.host = .command w early :: more ∧ decode w = .error e ∧
      step s = .next (raise .illegalCommand { s with host := more })) ∨
    (∃ f more, s.inflight = some f ∧ s.host = .reset true :: more ∧ step s = .refused .resetWhileBusy) ∨
    (∃ f w more, s.inflight = some f ∧ s.host = .command w true :: more ∧
      step s = .refused .commandWhileBusy) ∨
    (∃ f, s.inflight = some f ∧ step s = resume f s) := by
  unfold step fetch
  cases hf : s.inflight with
  | none =>
    match hh : s.host with
    | [] => simp
    | .reset early :: more => simp [resetBlock]
    | .command w early :: more => cases hd : decode w <;> simp [hd]
  | some f =>
    match hh : s.host with
    | .reset true :: more => simp
    | .command w true :: more => simp
    | [] => simp
    | .reset false :: more => simp
    | .command w false :: more => simp

/-- A run of one step more. -/
theorem run_succ (k : Nat) (h : step s = .next t) : core.run (k + 1) s = core.run k t := by
  have h' : core.step s = .next t := h
  simp only [Host.Core.run, h']

end Sys2Proof.Laws
end

