-- ==== Sys2Proof/Laws/PerInstr.lean ====
section
/-! SUPPORT. A law for every command as syntax: the word that the encoder gives selects the command's own row
of the opcode map (R49), and the command is well formed. -/

namespace Sys2Proof.Laws.RowSelected

/-- The encoded word selects the command's own row, and the command is well formed. -/
def Statement (i : Instr) : Prop := i.row.selects (encode i) = true ∧ i.wellFormed = true

theorem rdreg (addr : Byte) : Statement (.rdreg addr) :=
  ⟨(rowRdreg_selects _).mpr (by simp [encode]), rfl⟩

theorem wrreg (addr data : Byte) : Statement (.wrreg addr data) :=
  ⟨(rowWrreg_selects _).mpr (by simp [encode]), rfl⟩

theorem dectc (low mid high : Byte) : Statement (.dectc low mid high) :=
  ⟨(rowDectc_selects _).mpr (by simp [encode]), rfl⟩

theorem deccj (high low : Byte) : Statement (.deccj high low) :=
  ⟨(rowDeccj_selects _).mpr (by simp [encode]), rfl⟩

theorem rdtc : Statement .rdtc := ⟨by decide, rfl⟩

theorem rdcj : Statement .rdcj := ⟨by decide, rfl⟩

end Sys2Proof.Laws.RowSelected
end

