-- ==== Sys2Proof/Laws/Transact.lean ====
section
/-! SUPPORT. The inversion of `transact`, said once: a command that goes through its transactions with a next
state has responded OK after all of them, has failed at one of them, or waits at one of them. -/

namespace Sys2Proof.Laws

open Sys2Proof.Machine

/-- The events of transactions that answered Ok with the bytes `ds`. -/
def okEvents (txns : List Txn) (ds : List Byte) : List BusEvent := List.zipWith Txn.okEvent txns ds

/-- The temporaries after those transactions. -/
def storeAll (temps : Temps) : List Txn → List Byte → Temps
  | x :: xs, d :: ds => storeAll (x.store temps d) xs ds
  | _, _ => temps

/-- The state after those transactions: their answers used up, their events in the trace. -/
def afterOk (txns : List Txn) (ds : List Byte) (rest : List Answer) (s : State) : State :=
  { s with answers := rest, trace := s.trace ++ okEvents txns ds }

@[simp] theorem afterOk_config (txns : List Txn) (ds : List Byte) (rest : List Answer) (s : State) :
    (afterOk txns ds rest s).config = s.config := rfl
@[simp] theorem afterOk_inflight (txns : List Txn) (ds : List Byte) (rest : List Answer) (s : State) :
    (afterOk txns ds rest s).inflight = s.inflight := rfl
@[simp] theorem afterOk_host (txns : List Txn) (ds : List Byte) (rest : List Answer) (s : State) :
    (afterOk txns ds rest s).host = s.host := rfl
@[simp] theorem afterOk_answers (txns : List Txn) (ds : List Byte) (rest : List Answer) (s : State) :
    (afterOk txns ds rest s).answers = rest := rfl
@[simp] theorem afterOk_trace (txns : List Txn) (ds : List Byte) (rest : List Answer) (s : State) :
    (afterOk txns ds rest s).trace = s.trace ++ okEvents txns ds := rfl
@[simp] theorem afterOk_responses (txns : List Txn) (ds : List Byte) (rest : List Answer) (s : State) :
    (afterOk txns ds rest s).responses = s.responses := rfl

@[simp] theorem okEvents_nil (txns : List Txn) : okEvents txns [] = [] := by cases txns <;> rfl

@[simp] theorem storeAll_nil (temps : Temps) (txns : List Txn) : storeAll temps txns [] = temps := by
  cases txns <;> rfl

theorem afterOk_none (txns : List Txn) {rest : List Answer} {s : State} (h : s.answers = rest) :
    afterOk txns [] rest s = s := by
  subst h
  cases s
  simp [afterOk]

theorem afterOk_cons (x : Txn) (xs : List Txn) (d : Byte) (ds : List Byte) (more rest : List Answer)
    (s : State) :
    afterOk xs ds rest (answered (x.okEvent d) more s) = afterOk (x :: xs) (d :: ds) rest s := by
  simp [afterOk, answered, okEvents]

/-- Transactions whose answers are all Ok are gone through, one after the other. -/
theorem transact_all_ok (cmd : Instr) (xs : List Txn) (rest : List Answer) :
    ∀ (pre : List Txn) (ds : List Byte) (temps : Temps) (s : State), ds.length = pre.length →
      s.answers = ds.map Answer.ok ++ rest →
      transact cmd temps (pre ++ xs) s = transact cmd (storeAll temps pre ds) xs (afterOk pre ds rest s) := by
  intro pre
  induction pre with
  | nil =>
    intro ds temps s hl ha
    obtain rfl := List.length_eq_zero_iff.mp hl
    rw [storeAll_nil, afterOk_none [] (by simpa using ha), List.nil_append]
  | cons x pre ih =>
    intro ds temps s hl ha
    match ds, hl with
    | d :: ds, hl =>
      rw [List.cons_append, transact_ok cmd temps x (pre ++ xs) (d := d) (by simpa using ha),
        ih ds _ _ (by simpa using hl) rfl, afterOk_cons]
      rfl

/-- Everything that a command can do with its transactions when it comes to a next state: it responds OK
after all of them answered Ok; or it fails at one, after the ones before it answered Ok; or it waits at
one. -/
theorem transact_next {cmd : Instr} {t : State} :
    ∀ {txns : List Txn} {temps : Temps} {s : State}, transact cmd temps txns s = .next t →
      (∃ ds rest r, ds.length = txns.length ∧ s.answers = ds.map Answer.ok ++ rest ∧
        resultOf cmd (storeAll temps txns ds) = some r ∧
        t = respond (.ok r) (afterOk txns ds rest s)) ∨
      (∃ pre x post ds rest e, txns = pre ++ x :: post ∧ ds.length = pre.length ∧
        s.answers = ds.map Answer.ok ++ .err e :: rest ∧
        t = raise (.transportError e) (answered (x.errEvent e) rest (afterOk pre ds rest s))) ∨
      (∃ pre x post ds wait rest, txns = pre ++ x :: post ∧ ds.length = pre.length ∧
        s.answers = ds.map Answer.ok ++ wait ∧ ((wait = [] ∧ rest = []) ∨ wait = .later :: rest) ∧
        t = stayBusy ⟨cmd, storeAll temps pre ds, x, post⟩ rest (afterOk pre ds rest s)) := by
  intro txns
  induction txns with
  | nil =>
    intro temps s h
    rcases finish_cases cmd temps s with ⟨r, hr, hf⟩ | ⟨_, hf⟩
    · refine .inl ⟨[], s.answers, r, rfl, rfl, by simpa using hr, ?_⟩
      rw [transact_nil, hf] at h
      rw [afterOk_none [] rfl]
      exact (Host.Outcome.next.inj h).symm
    · rw [transact_nil, hf] at h; cases h
  | cons x xs ih =>
    intro temps s h
    rcases transact_cases cmd temps x xs s with ⟨ha, ht⟩ | ⟨more, ha, ht⟩ | ⟨e, more, ha, ht⟩ |
      ⟨d, more, ha, ht⟩
    · refine .inr (.inr ⟨[], x, xs, [], [], [], rfl, rfl, by simpa using ha, .inl ⟨rfl, rfl⟩, ?_⟩)
      rw [afterOk_none [] ha]
      exact (Host.Outcome.next.inj (ht ▸ h)).symm
    · refine .inr (.inr ⟨[], x, xs, [], .later :: more, more, rfl, rfl, by simpa using ha, .inr rfl, ?_⟩)
      rw [ht] at h
      rw [← Host.Outcome.next.inj h]
      simp [stayBusy, afterOk]
    · refine .inr (.inl ⟨[], x, xs, [], more, e, rfl, rfl, by simpa using ha, ?_⟩)
      rw [ht] at h
      rw [← Host.Outcome.next.inj h]
      simp [raise, respond, answered, afterOk]
    · rw [ht] at h
      rcases ih h with ⟨ds, rest, r, hl, hs, hr, rfl⟩ | ⟨pre, y, post, ds, rest, e, rfl, hl, hs, rfl⟩ |
        ⟨pre, y, post, ds, wait, rest, rfl, hl, hs, hw, rfl⟩
      · refine .inl ⟨d :: ds, rest, r, by simp [hl], ?_, hr, by rw [afterOk_cons]⟩
        rw [ha]; simpa using hs
      · refine .inr (.inl ⟨x :: pre, y, post, d :: ds, rest, e, rfl, by simp [hl], ?_,
          by rw [afterOk_cons]⟩)
        rw [ha]; simpa using hs
      · refine .inr (.inr ⟨x :: pre, y, post, d :: ds, wait, rest, rfl, by simp [hl], ?_, hw, ?_⟩)
        · rw [ha]; simpa using hs
        · rw [afterOk_cons]; rfl

end Sys2Proof.Laws
end

