-- ==== Sys2Proof/Tests/Slice0.lean ====
section
/-! SUPPORT. The model's own tests: expected values are those of the spec's test vectors
(95_test_vectors.md, named by their ids) and of its worked examples. Then, for every obligation with
hypotheses, a concrete state and operands that meet them together. -/

namespace Sys2Proof.Tests

open Sys2Proof.Machine Sys2Proof.Safety

/-! ## Helpers -/

/-- An idle block whose transport will answer so. -/
def bench (answers : List Answer) : State := { State.reset with answers := answers }

/-- An idle block with other read orders. -/
def benchOrder (tc : Config.TcOrder) (cj : Config.CjOrder) (answers : List Answer) : State :=
  { bench answers with config := { Config.defaults with tcReadOrder := tc, cjReadOrder := cj } }

/-- A block in the middle of RDTC: the low byte read, the read of the mid byte outstanding. -/
def midRdtc (host : List HostEvent) (answers : List Answer) : State :=
  { bench answers with
    host := host
    inflight := some ⟨.rdtc, { lo := some 0x20 }, .read .mid 0x0D, [.read .hi 0x0C]⟩
    trace := [.rd 0x0E (.ok 0x20)] }

/-- The responses and the bus trace after an outcome. -/
def seen (o : Host.Outcome State Fault Refusal) : Option (List Response × List BusEvent) :=
  match o with
  | .next s => some (s.responses, s.trace)
  | .fault _ => none
  | .refused _ => none

/-- The refusal of an outcome. -/
def refusal (o : Host.Outcome State Fault Refusal) : Option Refusal :=
  match o with
  | .next _ => none
  | .fault _ => none
  | .refused r => some r

/-- The state after an outcome, or `s` where there is none. -/
def after (s : State) (o : Host.Outcome State Fault Refusal) : State :=
  match o with
  | .next t => t
  | .fault _ => s
  | .refused _ => s

/-- The token of a transport error. -/
def anError : TransportError := ⟨1⟩

/-! ## Well-formedness: one ill-formed term for each check (R9) -/

theorem test_wf_defaults : Config.defaults.wellFormed = true := by decide

theorem test_wf_refuses_tc_hi_mid :
    ({ Config.defaults with addrTcHi := 0x0D } : Config.Params).wellFormed = false := by decide

theorem test_wf_refuses_tc_hi_lo :
    ({ Config.defaults with addrTcHi := 0x0E } : Config.Params).wellFormed = false := by decide

theorem test_wf_refuses_tc_mid_lo :
    ({ Config.defaults with addrTcMid := 0x0E } : Config.Params).wellFormed = false := by decide

theorem test_wf_refuses_cj_hi_lo :
    ({ Config.defaults with addrCjHi := 0x0B } : Config.Params).wellFormed = false := by decide

/-- R9 asks for distinctness within a group only: RDTC and RDCJ may share an address. -/
theorem test_wf_allows_shared_between_groups :
    ({ Config.defaults with addrCjHi := 0x0C } : Config.Params).wellFormed = true := by decide

/-- R78, R64: no operand value is refused. -/
theorem test_wf_instr_boundaries :
    (Instr.rdreg 0xFF).wellFormed = true ∧ (Instr.wrreg 0xFF 0xFF).wellFormed = true ∧
      (Instr.dectc 0xFF 0xFF 0xFF).wellFormed = true ∧ (Instr.deccj 0xFF 0xFF).wellFormed = true ∧
      Instr.rdtc.wellFormed = true ∧ Instr.rdcj.wellFormed = true := by decide

/-! ## Decoding: words written out bit by bit from the encodings of R48 and R49 -/

/-- Format A: OPC 00000001, B2 0, ADDR 00001100, B0 0. -/
theorem test_decode_rdreg :
    decode 0b00000001_00000000_00001100_00000000 = .ok (.rdreg 0x0C) := by decide

/-- Format AD: OPC 00000010, B2 0, ADDR 10000000, DATA 00010000 (A6). -/
theorem test_decode_wrreg :
    decode 0b00000010_00000000_10000000_00010000 = .ok (.wrreg 0x80 0x10) := by decide

/-- Format T: OPC 00000011, HIGH 00000001, MID 01110000, LOW 00100000 (S1). -/
theorem test_decode_dectc :
    decode 0b00000011_00000001_01110000_00100000 = .ok (.dectc 0x20 0x70 0x01) := by decide

/-- Format C: OPC 00000100, B2 0, HIGH 00011100, LOW 01100100 (S6). -/
theorem test_decode_deccj :
    decode 0b00000100_00000000_00011100_01100100 = .ok (.deccj 0x1C 0x64) := by decide

/-- Format N: OPC 00000101, the lanes 0. -/
theorem test_decode_rdtc : decode 0b00000101_00000000_00000000_00000000 = .ok .rdtc := by decide

/-- Format N: OPC 00000110, the lanes 0. -/
theorem test_decode_rdcj : decode 0b00000110_00000000_00000000_00000000 = .ok .rdcj := by decide

/-- X1 to X4: opcodes outside 0x01 to 0x06. -/
theorem test_decode_illegal_opcodes :
    decode 0x00000000 = .error .unknownOpcode ∧ decode 0xFFFFFFFF = .error .unknownOpcode ∧
      decode 0x07000000 = .error .unknownOpcode ∧ decode 0x80000000 = .error .unknownOpcode := by decide

/-- X5 to X11: reserved lanes. -/
theorem test_decode_reserved_lanes :
    decode 0x01010C00 = .error .reservedLane ∧ decode 0x01000C01 = .error .reservedLane ∧
      decode 0x02010A00 = .error .reservedLane ∧ decode 0x0401C964 = .error .reservedLane ∧
      decode 0x05000001 = .error .reservedLane ∧ decode 0x0500FF00 = .error .reservedLane ∧
      decode 0x06010000 = .error .reservedLane := by decide

/-- The table's bit numbers are the word's: row DECTC with all operand bits set (T5). -/
theorem test_decode_table_word :
    decodeTableWord 32 0x03FFFFFF = some (.dectc 0xFF 0xFF 0xFF) ∧ decodeTableWord 32 0x07000000 = none := by
  decide

/-- The masks of R49 say what the formats of R48 say: opcode and zero lanes. -/
theorem test_masks_follow_formats :
    opcodeTable.map (fun r => (r.format, r.mask)) =
      [(.a, packLanes 0xFF 0xFF 0 0xFF), (.ad, packLanes 0xFF 0xFF 0 0), (.t, packLanes 0xFF 0 0 0),
       (.c, packLanes 0xFF 0xFF 0 0), (.n, packLanes 0xFF 0xFF 0xFF 0xFF),
       (.n, packLanes 0xFF 0xFF 0xFF 0xFF)] := by decide

/-- R62: `DECTC 0x20, 0x70, 0x01` is 0x03017020, `DECCJ 0x1C, 0x64` is 0x04001C64. -/
theorem test_assembler_examples :
    (Instr.ofAsm ⟨"DECTC", [0x20, 0x70, 0x01]⟩).map encode = some 0x03017020 ∧
      (Instr.ofAsm ⟨"DECCJ", [0x1C, 0x64]⟩).map encode = some 0x04001C64 ∧
      Instr.ofAsm ⟨"NOP", []⟩ = none := by decide

/-! ## The commands -/

/-- S1 to S5: the document's own thermocouple cases (the readings of R59 fail S1 and S4). -/
theorem test_dectc_document_cases :
    decodeTc 0x20 0x70 0x01 = 0x00000B81 ∧ decodeTc 0x00 0x90 0x01 = 0x00000C80 ∧
      decodeTc 0x00 0x00 0x00 = 0x00000000 ∧ decodeTc 0x00 0xF0 0xFF = 0xFFFFFF80 ∧
      decodeTc 0x00 0x60 0xF0 = 0xFFFF8300 := by decide

/-- T2, T7, T9, T11, T14: discarded bits, both ends of the range, the top bit of mid, a negative fraction. -/
theorem test_dectc_corners :
    decodeTc 0x3F 0x70 0x01 = 0x00000B81 ∧ decodeTc 0xFF 0xFF 0x7F = 0x0003FFFF ∧
      decodeTc 0x1F 0x00 0x80 = 0xFFFC0000 ∧ decodeTc 0x00 0x80 0x00 = 0x00000400 ∧
      decodeTc 0xA0 0x0F 0xF0 = 0xFFFF807D := by decide

/-- S6 to S11: the document's own cold-junction cases (the readings of R59 fail S6 and S7). -/
theorem test_deccj_document_cases :
    decodeCj 0x64 0x1C = 0x00001C64 ∧ decodeCj 0xFC 0x7F = 0x00007FFC ∧
      decodeCj 0x00 0x19 = 0x00001900 ∧ decodeCj 0x00 0x00 = 0x00000000 ∧
      decodeCj 0x00 0xE7 = 0xFFFFE700 ∧ decodeCj 0x00 0xC9 = 0xFFFFC900 := by decide

/-- J3, J6, J9, J12: discarded bits and both signs, the lowest bit that a 12-bit field would keep. -/
theorem test_deccj_corners :
    decodeCj 0x67 0x1C = 0x00001C64 ∧ decodeCj 0xFF 0xFF = 0xFFFFFFFC ∧
      decodeCj 0x03 0x80 = 0xFFFF8000 ∧ decodeCj 0x10 0x00 = 0x00000010 := by decide

/-- A2: an address outside the observed range is sent; the byte is zero-extended. -/
theorem test_rdreg_zero_extends :
    seen (exec (.rdreg 0xFF) (bench [.ok 0xFF])) = some ([.ok 0x000000FF], [.rd 0xFF (.ok 0xFF)]) := by
  decide

/-- A3: a failure is passed on, with exactly one event. -/
theorem test_rdreg_error :
    seen (exec (.rdreg 0x0F) (bench [.err anError, .ok 0x00]))
      = some ([.transportError anError], [.rd 0x0F (.err anError)]) := by decide

/-- A6: the address of a write is passed unchanged; the result is 0. -/
theorem test_wrreg_ok :
    seen (exec (.wrreg 0x80 0x10) (bench [.ok 0xAA])) = some ([.ok 0x00000000], [.wr 0x80 0x10 .ok]) := by
  decide

/-- A5: a write to a temperature register is not refused; the failure is the transport's. -/
theorem test_wrreg_error :
    seen (exec (.wrreg 0x0C 0x55) (bench [.err anError]))
      = some ([.transportError anError], [.wr 0x0C 0x55 (.err anError)]) := by decide

/-- Q6: another read order changes the trace, not the lanes. -/
theorem test_rdtc_order :
    seen (exec .rdtc (benchOrder .hiMidLo .loHi [.ok 0x01, .ok 0x70, .ok 0x20]))
      = some ([.ok 0x00000B81], [.rd 0x0C (.ok 0x01), .rd 0x0D (.ok 0x70), .rd 0x0E (.ok 0x20)]) := by decide

/-- Q3: the last read fails: no partial result. -/
theorem test_rdtc_last_read_fails :
    seen (exec .rdtc (bench [.ok 0x20, .ok 0x70, .err anError]))
      = some ([.transportError anError],
          [.rd 0x0E (.ok 0x20), .rd 0x0D (.ok 0x70), .rd 0x0C (.err anError)]) := by decide

/-- Q8: the most negative reading, with discarded bits set, in the default order. -/
theorem test_rdcj_negative :
    seen (exec .rdcj (bench [.ok 0x03, .ok 0x80]))
      = some ([.ok 0xFFFF8000], [.rd 0x0B (.ok 0x03), .rd 0x0A (.ok 0x80)]) := by decide

/-- Q9: the other read order. -/
theorem test_rdcj_order :
    seen (exec .rdcj (benchOrder .loMidHi .hiLo [.ok 0x1C, .ok 0x64]))
      = some ([.ok 0x00001C64], [.rd 0x0A (.ok 0x1C), .rd 0x0B (.ok 0x64)]) := by decide

/-! ## The step -/

/-- P3, command 2: a reserved lane that is not zero; no bus event, no answer used up. -/
theorem test_step_illegal :
    seen (step ((bench [.ok 0x00]).withFetchWord 32 0x05000001)) = some ([.illegalCmd], []) := by decide

/-- P1, command 5: the first instruction after reset. -/
theorem test_step_first_command :
    seen (step (State.reset.withFetchWord 32 0x03017020)) = some ([.ok 0x00000B81], []) := by decide

/-- A8: the transport never returns: no response, the read outstanding, and the state stays as it is. -/
theorem test_step_silent_transport :
    after State.reset (step (State.reset.withFetchWord 32 0x01000C00))
      = { State.reset with inflight := some ⟨.rdreg 0x0C, {}, .read .t 0x0C, []⟩ } ∧
    after State.reset (step { State.reset with inflight := some ⟨.rdreg 0x0C, {}, .read .t 0x0C, []⟩ })
      = { State.reset with inflight := some ⟨.rdreg 0x0C, {}, .read .t 0x0C, []⟩ } := by decide

/-- R24: the command in flight goes on from where it was; the waiting host's command is held. -/
theorem test_step_resumes :
    after State.reset (step (midRdtc [.command 0x06000000 false] [.ok 0x70, .ok 0x01]))
      = { bench [] with
          host := [.command 0x06000000 false]
          trace := [.rd 0x0E (.ok 0x20), .rd 0x0D (.ok 0x70), .rd 0x0C (.ok 0x01)]
          responses := [.ok 0x00000B81] } := by decide

/-- U7 and U6: a command or a reset driven at a busy block. -/
theorem test_step_refusals :
    refusal (step (midRdtc [.command 0x06000000 true] [.ok 0x70])) = some .commandWhileBusy ∧
      refusal (step (midRdtc [.reset true] [.ok 0x70])) = some .resetWhileBusy := by decide

/-- R102: the reset event at an idle block. -/
theorem test_step_reset_event :
    after State.reset (step { bench [.ok 0x70] with host := [.reset false], responses := [.illegalCmd] })
      = { bench [.ok 0x70] with responses := [.illegalCmd] } := by decide

/-- R60: the codes of STATUS; U9: code 3 is a broken link. -/
theorem test_packed_status :
    (packResponse (.ok 0)).status = 0 ∧ (packResponse (.transportError anError)).status = 1 ∧
      (packResponse .illegalCmd).status = 2 ∧
      (match unpackResponse ⟨3, some 0, none⟩ with
        | .error .brokenLink => true
        | _ => false) = true := by decide

/-- S1 and S11 in °C (R16). -/
theorem test_celsius : tcCelsius 0x00000B81 = 23.0078125 ∧ cjCelsius 0xFFFFC900 = -55 := by
  have h1 : (0x00000B81 : Word).toInt = 2945 := by decide
  have h2 : (0xFFFFC900 : Word).toInt = -14080 := by decide
  rw [tcCelsius, cjCelsius, h1, h2]
  norm_num

/-! ## Witnesses: for every obligation with hypotheses, a state and operands that meet them -/

/-- The idle hypothesis of DectcRespondsWithTheField, DeccjRespondsWithTheField, DecodersArePureAndTotal,
DecodersDenoteTheFieldsTemperature, WriteConstrainsNoLaterRead and BusyBlockRefusesIdleBlockAccepts. -/
theorem test_witness_idle : (bench [.later]).inflight = none := rfl

/-- EncodeOfDecodeIsTheWord and DecodeFollowsTheOpcodeMap: a legal word and an illegal one. -/
theorem test_witness_decode :
    decode 0x0100FF00 = .ok (.rdreg 0xFF) ∧ decode 0x0100FF01 = .error .reservedLane := by decide

/-- OpcodeRowsAreDisjoint (and, by the second clause's hypothesis, ReservedLanesMatchNoRow, with
test_witness_decode): a row that a word selects. -/
theorem test_witness_row : rowDectc ∈ opcodeTable ∧ rowDectc.selects 0x03FFFFFF = true := by decide

/-- IllegalWordsRespondIllegalCmd: the all-ones word at the head of what the host does. -/
theorem test_witness_illegal :
    ((bench []).withFetchWord 32 0xFFFFFFFF).inflight = none ∧
      ((bench []).withFetchWord 32 0xFFFFFFFF).host = .command 0xFFFFFFFF false :: [] ∧
      ∀ r ∈ opcodeTable, r.selects 0xFFFFFFFF = false := by decide

/-- DecoderFormulationsAgree: words that are concatenations of their bytes. -/
theorem test_witness_words :
    (0x80001F : BitVec 24) = (0x80 : Byte) ++ (0x00 : Byte) ++ (0x1F : Byte) ∧
      (0x8003 : BitVec 16) = (0x80 : Byte) ++ (0x03 : Byte) := by decide

/-- DiscardedBitsHaveNoInfluence: low bytes that differ in every discarded bit, an idle block, and the
answer of its last clause. -/
theorem test_witness_discarded :
    ((0xE0 : Byte).extractLsb' 5 3 : BitVec 3) = (0xFF : Byte).extractLsb' 5 3 ∧
      ((0xFC : Byte).extractLsb' 2 6 : BitVec 6) = (0xFF : Byte).extractLsb' 2 6 ∧
      (bench [.ok 0xFF]).inflight = none ∧ (bench [.ok 0xFF]).answers = .ok 0xFF :: [] := by decide

/-- The hypotheses on the command word of DectcRespondsWithTheField, DeccjRespondsWithTheField,
RdregReadsOneRegister and WrregWritesOneRegister, each at its highest word. -/
theorem test_witness_operand_lanes :
    ((0x03FFFFFF : Word).extractLsb' 24 8 : Byte) = 0x03 ∧
      ((0x0400FFFF : Word).extractLsb' 24 8 : Byte) = 0x04 ∧
      ((0x0400FFFF : Word).extractLsb' 16 8 : Byte) = 0x00 ∧
      ((0x0100FF00 : Word).extractLsb' 24 8 : Byte) = 0x01 ∧
      ((0x0100FF00 : Word).extractLsb' 16 8 : Byte) = 0x00 ∧
      ((0x0100FF00 : Word).extractLsb' 0 8 : Byte) = 0x00 ∧
      ((0x0200FFFF : Word).extractLsb' 24 8 : Byte) = 0x02 ∧
      ((0x0200FFFF : Word).extractLsb' 16 8 : Byte) = 0x00 := by decide

/-- RdregReadsOneRegister and WrregWritesOneRegister, each clause. -/
theorem test_witness_accessor :
    (bench []).inflight = none ∧ (bench []).answers = [] ∧
    (bench [.ok 0x00]).inflight = none ∧ (bench [.ok 0x00]).answers = .ok 0x00 :: [] ∧
      (bench [.err anError, .later]).inflight = none ∧
      (bench [.err anError, .later]).answers = .err anError :: [.later] := by decide

/-- RdtcReadsAndDecodes: its first clause in the order of Q6, its second at the first and the last read
(the first clause of ReadingsEqualTheirParts too). -/
theorem test_witness_rdtc :
    (benchOrder .hiMidLo .loHi [.ok 0x01, .ok 0x70, .ok 0x20]).answers
      = tcArrange Config.TcOrder.hiMidLo (Answer.ok 0x20) (.ok 0x70) (.ok 0x01) ++ [] ∧
    [0x0C, 0x0D, 0x0E] = tcArrange Config.TcOrder.hiMidLo (0x0E : Byte) 0x0D 0x0C ∧
    (bench [.err anError]).answers
      = (tcArrange Config.TcOrder.loMidHi (Answer.ok 0) (.ok 0) (.ok 0)).take 0 ++ .err anError :: [] ∧
    (tcArrange Config.TcOrder.loMidHi (0x0E : Byte) 0x0D 0x0C)[0]? = some 0x0E ∧
    (bench [.ok 0x20, .ok 0x70, .err anError]).answers
      = (tcArrange Config.TcOrder.loMidHi (Answer.ok 0x20) (.ok 0x70) (.ok 0)).take 2
        ++ .err anError :: [] ∧
    (tcArrange Config.TcOrder.loMidHi (0x0E : Byte) 0x0D 0x0C)[2]? = some 0x0C := by decide

/-- RdcjReadsAndDecodes: likewise (the second clause of ReadingsEqualTheirParts too). -/
theorem test_witness_rdcj :
    (benchOrder .loMidHi .hiLo [.ok 0x1C, .ok 0x64]).answers
      = cjArrange Config.CjOrder.hiLo (Answer.ok 0x64) (.ok 0x1C) ++ [] ∧
    [0x0A, 0x0B] = cjArrange Config.CjOrder.hiLo (0x0B : Byte) 0x0A ∧
    (bench [.err anError]).answers
      = (cjArrange Config.CjOrder.loHi (Answer.ok 0) (.ok 0)).take 0 ++ .err anError :: [] ∧
    (cjArrange Config.CjOrder.loHi (0x0B : Byte) 0x0A)[0]? = some 0x0B ∧
    (bench [.ok 0x64, .err anError]).answers
      = (cjArrange Config.CjOrder.loHi (Answer.ok 0x64) (.ok 0)).take 1 ++ .err anError :: [] ∧
    (cjArrange Config.CjOrder.loHi (0x0B : Byte) 0x0A)[1]? = some 0x0A := by decide

/-- EveryReadingIsFresh: six answers to two RDTC, and four to two RDCJ. -/
theorem test_witness_fresh :
    (bench [.ok 0x20, .ok 0x70, .ok 0x01, .ok 0x00, .ok 0x90, .ok 0x01]).answers
      = tcArrange Config.TcOrder.loMidHi (Answer.ok 0x20) (.ok 0x70) (.ok 0x01)
        ++ (tcArrange Config.TcOrder.loMidHi (Answer.ok 0x00) (.ok 0x90) (.ok 0x01) ++ []) ∧
    (benchOrder .loMidHi .hiLo [.ok 0x1C, .ok 0x64, .ok 0xC9, .ok 0x00]).answers
      = cjArrange Config.CjOrder.hiLo (Answer.ok 0x64) (.ok 0x1C)
        ++ (cjArrange Config.CjOrder.hiLo (Answer.ok 0x00) (.ok 0xC9) ++ []) := by decide

/-- StableRegistersAreReadTrue: a device whose registers hold their own address, both clauses. -/
theorem test_witness_stable :
    (bench [.ok 0x0E, .ok 0x0D, .ok 0x0C]).answers = servedBy id (rdtcTxns Config.defaults) ++ [] ∧
      (bench [.ok 0x0B, .ok 0x0A]).answers = servedBy id (rdcjTxns Config.defaults) ++ [] := by decide

/-- TornReadingOfTheSpec: the answers of P4. -/
theorem test_witness_torn :
    (bench [.ok 0xE0, .ok 0x00, .ok 0x01]).config.tcReadOrder = .loMidHi ∧
      (bench [.ok 0xE0, .ok 0x00, .ok 0x01]).answers = .ok 0xE0 :: .ok 0x00 :: .ok 0x01 :: [] := by decide

/-- BusTraceFollowsTheRule, OneResponsePerCommand, StatusTellsFailureFromSuccess, ResultsHaveTheirFormat,
CommandsDoNotDependOnHistory and CommandsOnlyAddAndUseUp: a command that comes to a next state with a
response, from two blocks with different histories. -/
theorem test_witness_performed :
    (bench [.ok 0x00]).answers = [.ok 0x00] ++ [] ∧
    (bench [.ok 0x00, .later]).answers = [.ok 0x00] ++ [.later] ∧
    exec (.rdreg 0x00) (bench [.ok 0x00]) = .next { bench [] with
      trace := [.rd 0x00 (.ok 0x00)], responses := [.ok 0x00000000] } ∧
    ({ bench [.ok 0x00] with trace := [.wr 0x80 0x10 .ok], responses := [.illegalCmd] } : State).answers
      = (bench [.ok 0x00]).answers := ⟨rfl, rfl, rfl, rfl⟩

/-- The other case of StatusTellsFailureFromSuccess: a command that failed. -/
theorem test_witness_failed :
    exec (.rdreg 0x00) (bench [.err anError]) = .next { bench [] with
      trace := [.rd 0x00 (.err anError)], responses := [.transportError anError] } := rfl

/-- StepRunsTheDecodedCommand: a legal word at the head of what the host does. -/
theorem test_witness_step :
    (State.reset.withFetchWord 32 0x04001C64).inflight = none ∧
      (State.reset.withFetchWord 32 0x04001C64).host = .command 0x04001C64 false :: [] ∧
      decode 0x04001C64 = .ok (.deccj 0x1C 0x64) := by decide

/-- BusyBlockRefusesIdleBlockAccepts: each clause about a busy block. -/
theorem test_witness_busy :
    (midRdtc [.command 0x06000000 true] []).inflight
      = some ⟨.rdtc, { lo := some 0x20 }, .read .mid 0x0D, [.read .hi 0x0C]⟩ ∧
    (midRdtc [.command 0x06000000 true] []).host = .command 0x06000000 true :: [] ∧
    (midRdtc [.reset true] []).host = .reset true :: [] := by decide

/-- BusyBlockGoesOnWithItsCommand (and the first clause of SilentTransportHangsTheBlock with no answers):
a host that keeps to R111 and waits with a command. -/
theorem test_witness_waiting_host :
    HostKeepsProtocol (midRdtc [.command 0x06000000 false, .reset false] [.later]) ∧
      (midRdtc [.command 0x06000000 false, .reset false] [.later]).answers = .later :: [] ∧
      (midRdtc [.command 0x06000000 false, .reset false] []).answers = [] := by
  refine ⟨?_, rfl, rfl⟩
  intro ev h
  simp only [midRdtc, List.mem_cons, List.not_mem_nil, or_false] at h
  rcases h with rfl | rfl <;> simp

/-- ResetEventSendsNothing and IdleBlockRests. -/
theorem test_witness_idle_host :
    ({ bench [] with host := [.reset false] } : State).inflight = none ∧
      ({ bench [] with host := [.reset false] } : State).host = .reset false :: [] ∧
      (bench []).host = [] := by decide

/-- ParametersNeverChange: a step to a next state. -/
theorem test_witness_next : step (bench []) = .next (bench []) := rfl

/-- StepKeepsTheInvariant, NoUnwrittenTemporaryIsRead and ProtocolKeepingRunsNeverStop: the invariant holds of
a block in the middle of RDTC, which is no reset state, and it takes a step. -/
theorem test_witness_invariant :
    Inv (midRdtc [] [.later]) ∧ step (midRdtc [] [.later]) = .next (midRdtc [] []) ∧
      HostKeepsProtocol (midRdtc [] [.later]) := by
  refine ⟨⟨by decide, ?_⟩, rfl, ?_⟩
  · intro f h
    cases h
    refine ⟨1, rfl, ?_⟩
    intro x
    cases x <;> decide
  · intro ev h
    cases h

/-- A flight that is not part of the way through its rule is refused by the invariant: the high byte is
said to be read and is not. -/
theorem test_invariant_excludes :
    ¬ FlightOk Config.defaults ⟨.rdtc, { hi := some 0x20 }, .read .mid 0x0D, [.read .hi 0x0C]⟩ := by
  rintro ⟨n, hd, h⟩
  have hn : n = 1 := by
    match n, hd with
    | 0, hd => exact absurd hd (by decide)
    | 1, _ => rfl
    | 2, hd => exact absurd hd (by decide)
    | n + 3, hd => simp [txnsOf, rdtcTxns, tcArrange, Config.defaults] at hd
  subst hn
  exact absurd (h .hi) (by decide)

/-- UnansweredCommandIsInFlight, and the second clause of SilentTransportHangsTheBlock: RDTC with its first
byte answered. -/
theorem test_witness_unanswered :
    (txnsOf (bench [.ok 0x20, .later]).config .rdtc)[[(0x20 : Byte)].length]? = some (.read .mid 0x0D) ∧
      (bench [.ok 0x20, .later]).answers = [(0x20 : Byte)].map Answer.ok ++ .later :: [] ∧
      [(0x20 : Byte)].length < (txnsOf (bench [.ok 0x20]).config .rdtc).length ∧
      (bench [.ok 0x20]).answers = [(0x20 : Byte)].map Answer.ok := by decide

/-- AnsweredCommandsRespond and DelaysDoNotChangeTheOutcome: RDCJ with delays before both answers. -/
theorem test_witness_delays :
    (bench [.later, .ok 0x64, .later, .later, .ok 0x1C]).inflight = none ∧
    HostKeepsProtocol (bench [.later, .ok 0x64, .later, .later, .ok 0x1C]) ∧
    (txnsOf Config.defaults .rdcj).length
      ≤ (prompt (bench [.later, .ok 0x64, .later, .later, .ok 0x1C]).answers).length ∧
    exec .rdcj { bench [] with answers := prompt [.later, .ok 0x64, .later, .later, .ok 0x1C] }
      = .next { bench [] with
          trace := [.rd 0x0B (.ok 0x64), .rd 0x0A (.ok 0x1C)], responses := [.ok 0x00001C64] } := by
  refine ⟨rfl, ?_, by decide, rfl⟩
  intro ev h
  cases h

end Sys2Proof.Tests
end

section
/-! SUPPORT. The family '00_scope.md': the invariant at reset and over every step (R9, R23, R39, R41), and one
response for each command (R15, R24). The invariant of a command in flight is carried through `transact` as a
list `done` of the transactions answered so far, whose temporaries are the written ones. -/

namespace Sys2Proof.Proofs

open Sys2Proof.Machine Sys2Proof.Safety Sys2Proof.Laws

variable {s t : State} {done : List Txn} {temps : Temps}

/-! ## The temporaries that answered transactions have written -/

/-- The written temporaries are exactly those that the transactions `done` write when they succeed (R23). -/
def WrittenBy (done : List Txn) (temps : Temps) : Prop :=
  ∀ x : Temp, (temps.get x).isSome = true ↔ some x ∈ done.map destOf

theorem isSome_get_put (temps : Temps) (x y : Temp) (d : Byte) :
    ((temps.put x d).get y).isSome = true ↔ (temps.get y).isSome = true ∨ y = x := by
  by_cases h : x = y
  · subst h; simp
  · simp [get_put_other temps h, Ne.symm h]

theorem writtenBy_empty : WrittenBy [] {} := fun x => by simp

theorem writtenBy_store (h : WrittenBy done temps) (x : Txn) (d : Byte) :
    WrittenBy (done ++ [x]) (x.store temps d) := by
  intro y
  cases x with
  | read dst addr => simp [Txn.store, destOf, isSome_get_put, h y]
  | write addr data => simp [Txn.store, destOf, h y]

theorem writtenBy_storeAll (txns : List Txn) :
    ∀ {done : List Txn} {temps : Temps} {ds : List Byte}, WrittenBy done temps →
      ds.length = txns.length → WrittenBy (done ++ txns) (storeAll temps txns ds) := by
  induction txns with
  | nil =>
    intro done temps ds h hl
    obtain rfl := List.length_eq_zero_iff.mp hl
    simpa using h
  | cons x xs ih =>
    intro done temps ds h hl
    match ds, hl with
    | d :: ds, hl =>
      have hxs := ih (writtenBy_store h x d) (Nat.succ.inj hl)
      simpa [storeAll] using hxs

/-! ## A command in flight -/

/-- `FlightOk` with the answered transactions as a list in place of their number. -/
theorem flightOk_iff (p : Config.Params) (f : Flight) :
    FlightOk p f ↔
      ∃ done, txnsOf p f.cmd = done ++ f.outstanding :: f.rest ∧ WrittenBy done f.temps := by
  constructor
  · rintro ⟨n, hdrop, hw⟩
    refine ⟨(txnsOf p f.cmd).take n, ?_, hw⟩
    rw [← hdrop, List.take_append_drop]
  · rintro ⟨done, htxns, hw⟩
    refine ⟨done.length, by rw [htxns, List.drop_left], ?_⟩
    rw [htxns, List.take_left]
    exact hw

theorem inv_of_idle (hc : s.config.wellFormed = true) (hi : s.inflight = none) : Inv s :=
  ⟨hc, by simp [hi]⟩

/-- A command that goes on with the transactions `txns` of its rule, those before answered and their
temporaries written, comes to a state that meets the invariant. -/
theorem transact_establishes_inv {cmd : Instr} {txns : List Txn} (hc : s.config.wellFormed = true)
    (htxns : txnsOf s.config cmd = done ++ txns) (hw : WrittenBy done temps)
    (h : transact cmd temps txns s = .next t) : Inv t := by
  rcases transact_next h with ⟨ds, rest, r, -, -, -, rfl⟩ | ⟨pre, x, post, ds, rest, e, -, -, -, rfl⟩ |
    ⟨pre, x, post, ds, wait, rest, rfl, hl, -, -, rfl⟩
  case inl => exact inv_of_idle hc rfl
  case inr.inl => exact inv_of_idle hc rfl
  case inr.inr =>
    refine ⟨hc, fun f hf => ?_⟩
    obtain rfl := Option.some.inj hf
    exact (flightOk_iff _ _).mpr
      ⟨done ++ pre, by simpa using htxns, writtenBy_storeAll pre hw hl⟩

/-- A performed command needs only well-formed parameters: it begins with no temporary written. -/
theorem exec_establishes_inv {i : Instr} (hc : s.config.wellFormed = true) (h : exec i s = .next t) :
    Inv t := by
  rw [exec_idle (exec_next_idle h)] at h
  exact transact_establishes_inv hc rfl writtenBy_empty h

theorem resume_keeps_inv {f : Flight} (hinv : Inv s) (hf : s.inflight = some f)
    (h : resume f s = .next t) : Inv t := by
  obtain ⟨hc, hflight⟩ := hinv
  obtain ⟨done, htxns, hw⟩ := (flightOk_iff _ _).mp (hflight f hf)
  exact transact_establishes_inv hc htxns hw h

/-! ## The obligations -/

/-- Settles O42, by the cases of a step: a command performed or resumed goes on with its transactions, and
every other step that answers leaves the block idle. -/
theorem stepKeepsTheInvariant : Obligations.StepKeepsTheInvariant := by
  intro s t hinv h
  have hc : s.config.wellFormed = true := hinv.1
  rcases step_cases s with ⟨-, -, hs⟩ | ⟨early, more, -, -, hs⟩ | ⟨w, early, more, i, -, -, -, hs⟩ |
    ⟨w, early, more, e, -, -, -, hs⟩ | ⟨f, more, -, -, hs⟩ | ⟨f, w, more, -, -, hs⟩ | ⟨f, hf, hs⟩ <;>
    rw [hs] at h
  · exact Host.Outcome.next.inj h ▸ hinv
  · exact Host.Outcome.next.inj h ▸ inv_of_idle hc rfl
  · exact exec_establishes_inv (s := { s with host := more }) hc h
  · exact Host.Outcome.next.inj h ▸ inv_of_idle hc rfl
  · cases h
  · cases h
  · exact resume_keeps_inv hinv hf h

/-- Settles O26: of the three ways in which a command's transactions come to a next state, two respond once
and leave the block idle, and the third waits with the command in flight. -/
theorem oneResponsePerCommand : Obligations.OneResponsePerCommand := by
  intro i s t h
  rw [exec_idle (exec_next_idle h)] at h
  rcases transact_next h with ⟨ds, rest, r, -, -, -, rfl⟩ | ⟨pre, x, post, ds, rest, e, -, -, -, rfl⟩ |
    ⟨pre, x, post, ds, wait, rest, -, -, -, -, rfl⟩
  case inl => exact .inl ⟨rfl, .ok r, rfl⟩
  case inr.inl => exact .inl ⟨rfl, .transportError e, rfl⟩
  case inr.inr => exact .inr ⟨_, rfl, rfl, rfl⟩

/-- Settles O41: the default addresses are distinct (R9), and reset leaves no command in flight (R27). -/
theorem invariantAtReset : Obligations.InvariantAtReset := inv_of_idle (by decide) rfl

end Sys2Proof.Proofs
end

section
/-! SUPPORT. The family '10_state.md': what a command does depends on its answers only, and what it leaves
unchanged (R17); no unwritten temporary is read (R23); a command waits in flight (R24). The inversion
`transact_next` gets its converse, and both together say that a command's effect is the same on every state
that answers it alike. -/

namespace Sys2Proof.Proofs

open Sys2Proof.Machine Sys2Proof.Safety Sys2Proof.Laws

variable {s t : State} {cmd : Instr} {temps : Temps} {pre post txns : List Txn} {x : Txn} {ds : List Byte}
  {rest : List Answer}

/-! ## Each ending of a command, from its answers -/

theorem transact_responds_ok {r : Word} (hl : ds.length = txns.length)
    (ha : s.answers = ds.map Answer.ok ++ rest) (hr : resultOf cmd (storeAll temps txns ds) = some r) :
    transact cmd temps txns s = .next (respond (.ok r) (afterOk txns ds rest s)) := by
  have hall := transact_all_ok cmd [] rest txns ds temps s hl ha
  rw [List.append_nil] at hall
  simp only [hall, transact_nil, finish, hr]

theorem transact_responds_err {e : TransportError} (hl : ds.length = pre.length)
    (ha : s.answers = ds.map Answer.ok ++ .err e :: rest) :
    transact cmd temps (pre ++ x :: post) s
      = .next (raise (.transportError e) (answered (x.errEvent e) rest (afterOk pre ds rest s))) := by
  rw [transact_all_ok cmd _ _ pre ds temps s hl ha, transact_err _ _ _ _ (afterOk_answers ..)]
  rfl

theorem transact_waits {wait : List Answer} (hl : ds.length = pre.length)
    (ha : s.answers = ds.map Answer.ok ++ wait) (hw : (wait = [] ∧ rest = []) ∨ wait = .later :: rest) :
    transact cmd temps (pre ++ x :: post) s
      = .next (stayBusy ⟨cmd, storeAll temps pre ds, x, post⟩ rest (afterOk pre ds rest s)) := by
  rw [transact_all_ok cmd _ _ pre ds temps s hl ha]
  obtain ⟨rfl, rfl⟩ | rfl := hw
  · exact transact_silent _ _ _ _ (afterOk_answers ..)
  · exact transact_later _ _ _ _ (afterOk_answers ..)

/-! ## The effect of a command, on every state that answers it alike -/

@[simp] theorem length_okEvents (hl : ds.length = txns.length) :
    (okEvents txns ds).length = ds.length := by
  simp [okEvents, hl]

/-- The state once the events `evs` have joined the trace and `rest` is left of the answers. -/
def afterEvents (evs : List BusEvent) (rest : List Answer) (s : State) : State :=
  { s with answers := rest, trace := s.trace ++ evs }

theorem answered_afterOk (ev : BusEvent) (s : State) :
    answered ev rest (afterOk txns ds rest s) = afterEvents (okEvents txns ds ++ [ev]) rest s := by
  simp [answered, afterOk, afterEvents]

/-- A command that comes to a next state has responded, with one answer used for each event, and responds so
to the same answers on every state, whatever answers follow; or it waits, and does so on every state with the
same answers. -/
theorem transact_responds_or_waits (h : transact cmd temps txns s = .next t) :
    (∃ r evs used rest, s.answers = used ++ rest ∧ used.length = evs.length ∧ evs.length ≤ txns.length ∧
      t = respond r (afterEvents evs rest s) ∧
      ∀ (s' : State) (rest' : List Answer), s'.answers = used ++ rest' →
        transact cmd temps txns s' = .next (respond r (afterEvents evs rest' s'))) ∨
    (∃ f evs used rest, s.answers = used ++ rest ∧ evs.length ≤ used.length ∧
      used.length ≤ evs.length + 1 ∧ evs.length ≤ txns.length ∧
      t = stayBusy f rest (afterEvents evs rest s) ∧
      ∀ s' : State, s'.answers = s.answers →
        transact cmd temps txns s' = .next (stayBusy f rest (afterEvents evs rest s'))) := by
  rcases transact_next h with ⟨ds, rest, r, hl, ha, hr, rfl⟩ |
    ⟨pre, x, post, ds, rest, e, rfl, hl, ha, rfl⟩ | ⟨pre, x, post, ds, wait, rest, rfl, hl, ha, hw, rfl⟩
  case inl =>
    exact .inl ⟨.ok r, okEvents txns ds, ds.map .ok, rest, ha, by simp [hl], by simp [hl], rfl,
      fun s' rest' ha' => transact_responds_ok hl ha' hr⟩
  case inr.inl =>
    refine .inl ⟨.transportError e, okEvents pre ds ++ [x.errEvent e], ds.map .ok ++ [.err e], rest,
      by simp [ha], by simp [hl], by simp [hl], ?_, fun s' rest' ha' => ?_⟩
    · rw [answered_afterOk]; rfl
    · rw [transact_responds_err hl (by simpa using ha'), answered_afterOk]; rfl
  case inr.inr =>
    have hwaits (s' : State) (ha' : s'.answers = s.answers) :=
      transact_waits (cmd := cmd) (temps := temps) (x := x) (post := post) hl (ha'.trans ha) hw
    rcases hw with ⟨rfl, rfl⟩ | rfl
    · exact .inr ⟨_, okEvents pre ds, ds.map .ok, [], ha, by simp [hl], by simp [hl], by simp [hl], rfl,
        hwaits⟩
    · exact .inr ⟨_, okEvents pre ds, ds.map .ok ++ [.later], rest, by simp [ha], by simp [hl],
        by simp [hl], by simp [hl], rfl, hwaits⟩

theorem length_txnsOf_le (p : Config.Params) (i : Instr) : (txnsOf p i).length ≤ 3 := by
  cases i with
  | rdtc => cases h : p.tcReadOrder <;> simp [txnsOf, rdtcTxns, tcArrange, h]
  | rdcj => cases h : p.cjReadOrder <;> simp [txnsOf, rdcjTxns, cjArrange, h]
  | _ => simp [txnsOf, rdregTxns, wrregTxns]

/-! ## The temporaries that a result needs -/

/-- Once every transaction of a command has answered, the temporaries that its result needs are written. -/
theorem resultOf_isSome {p : Config.Params} (h : WrittenBy (txnsOf p cmd) temps) :
    (resultOf cmd temps).isSome = true := by
  cases cmd with
  | rdreg addr =>
    have ht : temps.t.isSome = true := (h .t).mpr (by simp [txnsOf, rdregTxns, destOf])
    simpa [resultOf] using ht
  | wrreg addr data => rfl
  | dectc low mid high => rfl
  | deccj high low => rfl
  | rdtc =>
    have hread (x : Temp) (hx : x ≠ .t) : some x ∈ (txnsOf p .rdtc).map destOf := by
      cases x <;> cases ho : p.tcReadOrder <;> simp_all [txnsOf, rdtcTxns, tcArrange, destOf]
    obtain ⟨lo, hlo⟩ := Option.isSome_iff_exists.mp ((h .lo).mpr (hread .lo nofun))
    obtain ⟨mid, hmid⟩ := Option.isSome_iff_exists.mp ((h .mid).mpr (hread .mid nofun))
    obtain ⟨hi, hhi⟩ := Option.isSome_iff_exists.mp ((h .hi).mpr (hread .hi nofun))
    simp_all [resultOf, Temps.get]
  | rdcj =>
    have hread : some .lo ∈ (txnsOf p .rdcj).map destOf ∧ some .hi ∈ (txnsOf p .rdcj).map destOf := by
      cases ho : p.cjReadOrder <;> simp [txnsOf, rdcjTxns, cjArrange, destOf, ho]
    obtain ⟨lo, hlo⟩ := Option.isSome_iff_exists.mp ((h .lo).mpr hread.1)
    obtain ⟨hi, hhi⟩ := Option.isSome_iff_exists.mp ((h .hi).mpr hread.2)
    simp_all [resultOf, Temps.get]

/-- A command part of the way through its rule, with the temporaries of its answered reads written, does not
fault. -/
theorem transact_ne_fault {p : Config.Params} {r : Fault} :
    ∀ {txns done : List Txn} {temps : Temps} {s : State}, txnsOf p cmd = done ++ txns →
      WrittenBy done temps → transact cmd temps txns s ≠ .fault r := by
  intro txns
  induction txns with
  | nil =>
    intro done temps s htxns hw
    have hresult : (resultOf cmd temps).isSome = true :=
      resultOf_isSome (p := p) (by simpa [htxns] using hw)
    rcases finish_cases cmd temps s with ⟨_, _, hf⟩ | ⟨hnone, _⟩
    · simp [transact_nil, hf]
    · simp [hnone] at hresult
  | cons x xs ih =>
    intro done temps s htxns hw
    rcases transact_cases cmd temps x xs s with ⟨_, ht⟩ | ⟨_, _, ht⟩ | ⟨_, _, _, ht⟩ | ⟨d, _, _, ht⟩
    · simp [ht]
    · simp [ht]
    · simp [ht]
    · rw [ht]
      exact ih (by simpa using htxns) (writtenBy_store hw x d)

theorem exec_ne_fault (i : Instr) (s : State) (r : Fault) : exec i s ≠ .fault r := by
  cases hf : s.inflight with
  | none => rw [exec_idle hf]; exact transact_ne_fault rfl writtenBy_empty
  | some f => simp [exec_busy hf]

theorem resume_ne_fault {f : Flight} (hflight : FlightOk s.config f) (r : Fault) :
    resume f s ≠ .fault r := by
  obtain ⟨done, htxns, hw⟩ := (flightOk_iff _ _).mp hflight
  exact transact_ne_fault htxns hw

/-! ## The requests of answered transactions -/

theorem requestIn_okEvent (x : Txn) (d : Byte) : requestIn (x.okEvent d) = requestOf x := by
  cases x <;> rfl

theorem map_requestIn_okEvents (txns : List Txn) :
    ∀ {ds : List Byte}, ds.length = txns.length → (okEvents txns ds).map requestIn = txns.map requestOf := by
  induction txns with
  | nil => intro ds _; rfl
  | cons x xs ih =>
    intro ds hl
    match ds, hl with
    | d :: ds, hl =>
      have hxs : (okEvents xs ds).map requestIn = xs.map requestOf := ih (Nat.succ.inj hl)
      simpa [okEvents, requestIn_okEvent] using hxs

/-! ## A busy block -/

theorem step_busy {f : Flight} (hf : s.inflight = some f) (hp : HostKeepsProtocol s) :
    step s = resume f s := by
  rcases step_cases s with ⟨hi, -, -⟩ | ⟨_, _, hi, -, -⟩ | ⟨_, _, _, _, hi, -, -, -⟩ |
    ⟨_, _, _, _, hi, -, -, -⟩ | ⟨_, more, -, hh, -⟩ | ⟨_, w, more, -, hh, -⟩ | ⟨g, hg, hs⟩
  · simp [hf] at hi
  · simp [hf] at hi
  · simp [hf] at hi
  · simp [hf] at hi
  · exact absurd rfl (hp (.reset true) (by simp [hh])).2
  · exact absurd rfl ((hp (.command w true) (by simp [hh])).1 w)
  · obtain rfl : f = g := Option.some.inj (hf.symm.trans hg)
    exact hs

theorem resume_later {f : Flight} {more : List Answer} (hf : s.inflight = some f)
    (ha : s.answers = .later :: more) : resume f s = .next { s with answers := more } := by
  rw [resume, transact_later _ _ _ _ ha]
  simp [stayBusy, hf]

/-! ## The obligations -/

/-- Settles O32: a command on an idle block is `transact` from no temporaries, whose effect is the same on
every state that answers it alike; once it has responded, the answers left over are free. -/
theorem commandsDoNotDependOnHistory : Obligations.CommandsDoNotDependOnHistory := by
  constructor
  · intro i s s' t hc hi ha h
    have hidle := exec_next_idle h
    rw [exec_idle hidle] at h
    rw [exec_idle (hi.trans hidle), hc]
    rcases transact_responds_or_waits h with ⟨r, evs, used, rest, hs, -, -, rfl, hsame⟩ |
      ⟨f, evs, used, rest, -, -, -, -, rfl, hsame⟩
    · exact ⟨_, evs, [r], hsame s' rest (ha.trans hs), rfl, rfl, rfl, rfl, rfl, rfl⟩
    · exact ⟨_, evs, [], hsame s' ha, rfl, rfl, (List.append_nil _).symm, (List.append_nil _).symm, rfl,
        rfl⟩
  · intro i s s' t used rest' hc hi h ht hs hs'
    have hidle := exec_next_idle h
    rw [exec_idle hidle] at h
    rw [exec_idle (hi.trans hidle), hc]
    rcases transact_responds_or_waits h with ⟨r, evs, used', rest, hs₀, -, -, rfl, hsame⟩ |
      ⟨f, evs, used', rest, -, -, -, -, rfl, -⟩
    · obtain rfl : used = used' := List.append_cancel_right (hs.symm.trans hs₀)
      exact ⟨_, evs, r, hsame s' rest' hs', rfl, rfl, rfl, rfl, rfl, rfl⟩
    · simp at ht

/-- Settles O33: in both endings of a command the parameters and the host are those before, and the answers
used are counted by its events, of which there is at most one for each transaction of its rule. -/
theorem commandsOnlyAddAndUseUp : Obligations.CommandsOnlyAddAndUseUp := by
  intro i s t h
  have hmax := length_txnsOf_le s.config i
  rw [exec_idle (exec_next_idle h)] at h
  rcases transact_responds_or_waits h with ⟨r, evs, used, rest, hs, hused, hevs, rfl, -⟩ |
    ⟨f, evs, used, rest, hs, hmin, hone, hevs, rfl, -⟩
  · exact ⟨rfl, rfl, ⟨evs, rfl, by omega, used, hs, by omega, by omega, fun _ => hused⟩, [r], rfl, by simp⟩
  · exact ⟨rfl, rfl, ⟨evs, rfl, by omega, used, hs, hmin, hone, nofun⟩, [], (List.append_nil _).symm, by simp⟩

/-- Settles O43: a step that goes through transactions begins a command, with no temporary written and all of
them to come, or resumes one that the invariant has part of the way through its rule. -/
theorem noUnwrittenTemporaryIsRead : Obligations.NoUnwrittenTemporaryIsRead := by
  intro s hinv
  refine ⟨fun r => ?_, fun i r => exec_ne_fault i s r⟩
  rcases step_cases s with ⟨-, -, hs⟩ | ⟨_, _, -, -, hs⟩ | ⟨_, _, _, i, -, -, -, hs⟩ |
    ⟨_, _, _, _, -, -, -, hs⟩ | ⟨_, _, -, -, hs⟩ | ⟨_, _, _, -, -, hs⟩ | ⟨f, hf, hs⟩ <;> rw [hs]
  · nofun
  · nofun
  · exact exec_ne_fault i _ r
  · nofun
  · nofun
  · nofun
  · exact resume_ne_fault (hinv.2 f hf) r

/-- Settles O45: the rule's transactions are those answered Ok, the one that waits, and the later ones. -/
theorem unansweredCommandIsInFlight : Obligations.UnansweredCommandIsInFlight := by
  intro i s ds x more hidle hx ha
  obtain ⟨hlt, hget⟩ := List.getElem?_eq_some_iff.mp hx
  have hl : ds.length = ((txnsOf s.config i).take ds.length).length := by
    rw [List.length_take]; omega
  have htxns : txnsOf s.config i
      = (txnsOf s.config i).take ds.length ++ x :: (txnsOf s.config i).drop (ds.length + 1) := by
    rw [← hget, List.getElem_cons_drop, List.take_append_drop]
  have hexec := transact_waits (cmd := i) (temps := {}) (x := x)
    (post := (txnsOf s.config i).drop (ds.length + 1)) hl ha (.inr rfl)
  rw [← htxns, ← exec_idle hidle] at hexec
  refine ⟨_, _, hexec, rfl, (flightOk_iff _ _).mpr ⟨_, htxns, ?_⟩, rfl, rfl, rfl, rfl, rfl, _, rfl, ?_⟩
  · exact writtenBy_storeAll _ writtenBy_empty hl
  · rw [map_requestIn_okEvents _ hl, List.map_take]

/-- Settles O36: of the cases of a step, only the resumption is one of a busy block whose host waits. -/
theorem busyBlockGoesOnWithItsCommand : Obligations.BusyBlockGoesOnWithItsCommand :=
  ⟨fun _ _ hf hp => step_busy hf hp,
    fun _ _ _ hf hp ha => (step_busy hf hp).trans (resume_later hf ha)⟩

end Sys2Proof.Proofs
end

section
/-! SUPPORT. The family '20_memory.md': what reaches the bus for a command, and when. Every register access is
a transaction of the command's rule, in the rule's order (R39, R41); a write holds back no later read (R30);
every reading reads again (R46); and answers that take time change nothing but the time (R41 b). -/

namespace Sys2Proof.Proofs

open Sys2Proof.Machine Sys2Proof.Safety Sys2Proof.Laws

variable {s t : State} {cmd i : Instr} {temps : Temps} {txns : List Txn} {ds : List Byte}
  {rest : List Answer}

/-! ## A command whose transactions all answer Ok -/

theorem exec_responds_ok {r : Word} (hidle : s.inflight = none)
    (hl : ds.length = (txnsOf s.config i).length) (ha : s.answers = ds.map Answer.ok ++ rest)
    (hr : resultOf i (storeAll {} (txnsOf s.config i) ds) = some r) :
    exec i s = .next (respond (.ok r) (afterOk (txnsOf s.config i) ds rest s)) := by
  rw [exec_idle hidle]
  exact transact_responds_ok hl ha hr

/-- The zero extension of R61, as the lanes that R74 gives. -/
theorem byteResult_eq (d : Byte) : byteResult d = (0 : BitVec 24) ++ d := by
  apply BitVec.eq_of_toNat_eq
  rw [toNat_concat, byteResult, BitVec.toNat_setWidth, Nat.mod_eq_of_lt (by omega)]
  simp

/-! ## The read orders -/

@[simp] theorem length_tcArrange {α : Type} (o : Config.TcOrder) (lo mid hi : α) :
    (tcArrange o lo mid hi).length = 3 := by
  cases o <;> rfl

@[simp] theorem length_cjArrange {α : Type} (o : Config.CjOrder) (lo hi : α) :
    (cjArrange o lo hi).length = 2 := by
  cases o <;> rfl

theorem map_tcArrange {α β : Type} (f : α → β) (o : Config.TcOrder) (lo mid hi : α) :
    (tcArrange o lo mid hi).map f = tcArrange o (f lo) (f mid) (f hi) := by
  cases o <;> rfl

theorem map_cjArrange {α β : Type} (f : α → β) (o : Config.CjOrder) (lo hi : α) :
    (cjArrange o lo hi).map f = cjArrange o (f lo) (f hi) := by
  cases o <;> rfl

theorem tcReadOrdersSpelledOut : TcReadOrdersSpelledOut :=
  fun _ _ _ _ => ⟨rfl, rfl, rfl, rfl, rfl, rfl⟩

theorem cjReadOrdersSpelledOut : CjReadOrdersSpelledOut := fun _ _ _ => ⟨rfl, rfl⟩

/-! ## The readings

The parameter that names an address, never the read order, decides which lane a byte goes to (R80 a). -/

theorem resultOf_rdtc (p : Config.Params) (lo mid hi : Byte) :
    resultOf .rdtc (storeAll {} (txnsOf p .rdtc) (tcArrange p.tcReadOrder lo mid hi))
      = some (decodeTc lo mid hi) := by
  simp only [txnsOf, rdtcTxns]
  cases p.tcReadOrder <;> rfl

theorem resultOf_rdcj (p : Config.Params) (lo hi : Byte) :
    resultOf .rdcj (storeAll {} (txnsOf p .rdcj) (cjArrange p.cjReadOrder lo hi))
      = some (decodeCj lo hi) := by
  simp only [txnsOf, rdcjTxns]
  cases p.cjReadOrder <;> rfl

theorem okEvents_rdtc (p : Config.Params) (lo mid hi : Byte) :
    okEvents (txnsOf p .rdtc) (tcArrange p.tcReadOrder lo mid hi)
      = tcArrange p.tcReadOrder (.rd p.addrTcLo (.ok lo)) (.rd p.addrTcMid (.ok mid))
          (.rd p.addrTcHi (.ok hi)) := by
  simp only [txnsOf, rdtcTxns]
  cases p.tcReadOrder <;> rfl

theorem okEvents_rdcj (p : Config.Params) (lo hi : Byte) :
    okEvents (txnsOf p .rdcj) (cjArrange p.cjReadOrder lo hi)
      = cjArrange p.cjReadOrder (.rd p.addrCjLo (.ok lo)) (.rd p.addrCjHi (.ok hi)) := by
  simp only [txnsOf, rdcjTxns]
  cases p.cjReadOrder <;> rfl

/-- RDTC with three Ok answers (R80). -/
theorem rdtc_responds_ok {lo mid hi : Byte} (hidle : s.inflight = none)
    (ha : s.answers = tcArrange s.config.tcReadOrder (.ok lo) (.ok mid) (.ok hi) ++ rest) :
    exec .rdtc s = .next (respond (.ok (decodeTc lo mid hi)) (afterEvents
      (tcArrange s.config.tcReadOrder (.rd s.config.addrTcLo (.ok lo)) (.rd s.config.addrTcMid (.ok mid))
        (.rd s.config.addrTcHi (.ok hi))) rest s)) := by
  rw [exec_responds_ok hidle (ds := tcArrange s.config.tcReadOrder lo mid hi) (by simp [txnsOf, rdtcTxns])
    (by rw [map_tcArrange, ha]) (resultOf_rdtc _ lo mid hi), ← okEvents_rdtc]
  rfl

/-- RDCJ with two Ok answers (R81). -/
theorem rdcj_responds_ok {lo hi : Byte} (hidle : s.inflight = none)
    (ha : s.answers = cjArrange s.config.cjReadOrder (.ok lo) (.ok hi) ++ rest) :
    exec .rdcj s = .next (respond (.ok (decodeCj lo hi)) (afterEvents
      (cjArrange s.config.cjReadOrder (.rd s.config.addrCjLo (.ok lo)) (.rd s.config.addrCjHi (.ok hi)))
        rest s)) := by
  rw [exec_responds_ok hidle (ds := cjArrange s.config.cjReadOrder lo hi) (by simp [txnsOf, rdcjTxns])
    (by rw [map_cjArrange, ha]) (resultOf_rdcj _ lo hi), ← okEvents_rdcj]
  rfl

/-! ## The events of a command -/

@[simp] theorem requestIn_errEvent (x : Txn) (e : TransportError) :
    requestIn (x.errEvent e) = requestOf x := by
  cases x <;> rfl

theorem errorIn_okEvent (x : Txn) (d : Byte) : errorIn (x.okEvent d) = none := by
  cases x <;> rfl

theorem errorIn_of_mem_okEvents {ev : BusEvent} (h : ev ∈ okEvents txns ds) : errorIn ev = none := by
  rw [okEvents, ← List.map_uncurry_zip_eq_zipWith] at h
  obtain ⟨⟨x, d⟩, -, rfl⟩ := List.mem_map.mp h
  exact errorIn_okEvent x d

/-! ## Answers that take time -/

@[simp] theorem prompt_ok (d : Byte) (more : List Answer) :
    prompt (.ok d :: more) = .ok d :: prompt more := by
  simp [prompt]

@[simp] theorem prompt_err (e : TransportError) (more : List Answer) :
    prompt (.err e :: more) = .err e :: prompt more := by
  simp [prompt]

@[simp] theorem prompt_later (more : List Answer) : prompt (.later :: more) = prompt more := by
  simp [prompt]

/-- What is in flight is not looked at by the transactions that go on: a response replaces it. -/
theorem transact_forgets_inflight (fl : Option Flight) (h : transact cmd temps txns s = .next t)
    (ht : t.inflight = none) : transact cmd temps txns { s with inflight := fl } = .next t := by
  rcases transact_responds_or_waits h with ⟨r, evs, used, rest, hs, -, -, rfl, hsame⟩ |
    ⟨f, evs, used, rest, -, -, -, -, rfl, -⟩
  · exact hsame { s with inflight := fl } rest hs
  · simp at ht

/-- A command that has no transaction left ends at once, whatever the answers are. -/
theorem finish_with_answers (answers : List Answer)
    (h : finish cmd temps { s with answers := answers } = .next t) :
    finish cmd temps s = .next { t with answers := s.answers } ∧ t.answers = answers := by
  unfold finish at h ⊢
  cases hr : resultOf cmd temps with
  | none => simp [hr] at h
  | some r =>
    obtain rfl : respond (.ok r) { s with answers := answers } = t := by simpa [hr] using h
    exact ⟨rfl, rfl⟩

/-- Transactions that respond when the delays are taken out respond with them too, in the same state but for
the delays among the answers left: each delay costs one step of the busy block. -/
theorem transact_delayed (ht : t.inflight = none) :
    ∀ (answers : List Answer) (txns : List Txn) (temps : Temps) (s : State), s.answers = answers →
      HostKeepsProtocol s → transact cmd temps txns { s with answers := prompt answers } = .next t →
      ∃ u k left, transact cmd temps txns s = .next u ∧
        core.run k u = .next { t with answers := left } ∧ prompt left = t.answers
  | answers, [], temps, s, ha, _, h => by
    obtain ⟨hfin, hleft⟩ := finish_with_answers (prompt answers) h
    exact ⟨_, 0, s.answers, hfin, rfl, by rw [ha, hleft]⟩
  | [], x :: xs, temps, s, _, _, h => by
    obtain rfl := Host.Outcome.next.inj ((transact_silent cmd temps x xs rfl).symm.trans h)
    simp at ht
  | .ok d :: more, x :: xs, temps, s, ha, hp, h => by
    rw [transact_ok cmd temps x xs (prompt_ok d more)] at h
    rw [transact_ok cmd temps x xs ha]
    exact transact_delayed ht more xs _ (answered (x.okEvent d) more s) rfl hp h
  | .err e :: more, x :: xs, temps, s, ha, _, h => by
    rw [transact_err cmd temps x xs (prompt_err e more)] at h
    obtain rfl := Host.Outcome.next.inj h
    exact ⟨_, 0, more, transact_err cmd temps x xs ha, rfl, rfl⟩
  | .later :: more, x :: xs, temps, s, ha, hp, h => by
    rw [prompt_later] at h
    have hbusy := transact_forgets_inflight (some ⟨cmd, temps, x, xs⟩) h ht
    obtain ⟨u, k, left, hgo, hrun, hleft⟩ :=
      transact_delayed ht more (x :: xs) temps (stayBusy ⟨cmd, temps, x, xs⟩ more s) rfl hp hbusy
    have hstep : step (stayBusy ⟨cmd, temps, x, xs⟩ more s) = .next u :=
      (step_busy (stayBusy_inflight ..) hp).trans hgo
    exact ⟨_, k + 1, left, transact_later cmd temps x xs ha, (run_succ k hstep).trans hrun, hleft⟩

/-! ## The obligations -/

/-- Settles O22, for RDTC and for RDCJ: the first reading ends with the second one's answers left, and the
second reads every register again. -/
theorem everyReadingIsFresh : Obligations.EveryReadingIsFresh := by
  refine ⟨tcReadOrdersSpelledOut, cjReadOrdersSpelledOut, ?_, ?_⟩
  · intro lo mid hi lo' mid' hi' s more hidle ha
    refine ⟨_, _, rdtc_responds_ok hidle ha, rdtc_responds_ok rfl rfl, ?_, rfl, rfl, ?_⟩ <;>
      simp [afterEvents]
  · intro lo hi lo' hi' s more hidle ha
    refine ⟨_, _, rdcj_responds_ok hidle ha, rdcj_responds_ok rfl rfl, ?_, rfl, rfl, ?_⟩ <;>
      simp [afterEvents]

/-- Settles O25, by the three ways in which a command comes to a next state: all of its transactions are
answered Ok, or the last event is the failed one, or the events are those before the one that waits. -/
theorem busTraceFollowsTheRule : Obligations.BusTraceFollowsTheRule := by
  intro i s t h
  rw [exec_idle (exec_next_idle h)] at h
  rcases transact_next h with ⟨ds, rest, r, hl, -, -, rfl⟩ |
    ⟨pre, x, post, ds, rest, e, htxns, hl, -, rfl⟩ | ⟨pre, x, post, ds, wait, rest, htxns, hl, -, -, rfl⟩
  case inl =>
    have hall := map_requestIn_okEvents _ hl
    refine ⟨(txnsOf s.config i).length, _, rfl, ?_, fun ev hev => ?_, fun _ _ => hall⟩
    · rw [hall, ← List.length_map (f := requestOf), List.take_length]
    · exact errorIn_of_mem_okEvents (List.dropLast_subset _ hev)
  case inr.inl =>
    have hpre := map_requestIn_okEvents _ hl
    refine ⟨pre.length + 1, okEvents pre ds ++ [x.errEvent e], by simp, ?_, fun ev hev => ?_,
      fun r hr => ?_⟩
    · simp [htxns, hpre, List.take_append]
    · rw [List.dropLast_concat] at hev
      exact errorIn_of_mem_okEvents hev
    · simp [Exn.response] at hr
  case inr.inr =>
    have hpre := map_requestIn_okEvents _ hl
    refine ⟨pre.length, _, rfl, ?_, fun ev hev => ?_, fun r hr => ?_⟩
    · simp [htxns, hpre]
    · exact errorIn_of_mem_okEvents (List.dropLast_subset _ hev)
    · simp at hr

/-- Settles O48: the command is its transactions, and delayed transactions come to the same end. -/
theorem delaysDoNotChangeTheOutcome : Obligations.DelaysDoNotChangeTheOutcome := by
  intro i s t hidle hp h ht
  rw [exec_idle (s := { s with answers := prompt s.answers }) hidle] at h
  rw [exec_idle hidle]
  obtain ⟨u, k, left, hgo, hrun, hleft⟩ := transact_delayed ht s.answers _ _ s rfl hp h
  exact ⟨u, _, k, hgo, hrun, ht, rfl, rfl, hleft, rfl, rfl⟩

/-- Settles O18: the write takes the first Ok, and the read that follows the byte of the second. -/
theorem writeConstrainsNoLaterRead : Obligations.WriteConstrainsNoLaterRead := by
  intro addr data d s hidle
  have hwrite : exec (.wrreg addr data) { s with answers := [.ok 0, .ok d] } = .next _ :=
    exec_responds_ok (ds := [0]) (rest := [.ok d]) hidle rfl rfl rfl
  have hread := exec_responds_ok (s := respond (.ok 0) (afterOk (wrregTxns addr data) [0] [.ok d] s))
    (i := .rdreg addr) (ds := [d]) (rest := []) rfl rfl rfl rfl
  refine ⟨[.ok 0, .ok d], _, _, hwrite, rfl, hread, ?_⟩
  rw [byteResult_eq]
  rfl

end Sys2Proof.Proofs
end

section
/-! SUPPORT. The family '30_encoding.md': the command word and the response. A word decodes to the command of
the one row it selects, with the operands in its lanes (R54); every other word is illegal (R50, R51). The
result of a command that responds OK is a value of its result format (R61). -/

namespace Sys2Proof.Proofs

open Sys2Proof.Machine Sys2Proof.Safety Sys2Proof.Laws

variable {s t : State} {w : Word} {i : Instr} {r r' : Row}

/-! ## The opcode map -/

/-- Every row fixes the whole opcode (R49). -/
theorem opcodeOf_of_selects (hr : r ∈ opcodeTable) (h : r.selects w = true) :
    opcodeOf w = opcodeOf r.pattern := by
  simp only [opcodeTable, List.mem_cons, List.not_mem_nil, or_false] at hr
  rcases hr with rfl | rfl | rfl | rfl | rfl | rfl
  · exact ((rowRdreg_selects w).mp h).1
  · exact ((rowWrreg_selects w).mp h).1
  · exact (rowDectc_selects w).mp h
  · exact ((rowDeccj_selects w).mp h).1
  · exact ((rowRdtc_selects w).mp h).1
  · exact ((rowRdcj_selects w).mp h).1

theorem row_eq_of_opcodeOf_pattern_eq :
    ∀ r ∈ opcodeTable, ∀ r' ∈ opcodeTable, opcodeOf r.pattern = opcodeOf r'.pattern → r = r' := by
  decide

theorem opcodeOf_pattern_range :
    ∀ r ∈ opcodeTable, 1 ≤ (opcodeOf r.pattern).toNat ∧ (opcodeOf r.pattern).toNat ≤ 6 := by
  decide

theorem selected_row_unique (hr : r ∈ opcodeTable) (hr' : r' ∈ opcodeTable) (h : r.selects w = true)
    (h' : r'.selects w = true) : r = r' :=
  row_eq_of_opcodeOf_pattern_eq r hr r' hr'
    ((opcodeOf_of_selects hr h).symm.trans (opcodeOf_of_selects hr' h'))

/-- Of the rows, a word that selects `r` selects `r` only. -/
theorem selects_eq_decide (hr : r ∈ opcodeTable) (hr' : r' ∈ opcodeTable) (h : r.selects w = true) :
    r'.selects w = decide (r = r') := by
  rw [Bool.eq_iff_iff, decide_eq_true_iff]
  exact ⟨selected_row_unique hr hr' h, fun heq => heq ▸ h⟩

theorem row_mem_opcodeTable (i : Instr) : i.row ∈ opcodeTable := by
  cases i <;> simp [Instr.row, opcodeTable]

theorem row_selects_encode (i : Instr) : i.row.selects (encode i) = true := by
  cases i with
  | rdreg addr => exact (RowSelected.rdreg addr).1
  | wrreg addr data => exact (RowSelected.wrreg addr data).1
  | dectc low mid high => exact (RowSelected.dectc low mid high).1
  | deccj high low => exact (RowSelected.deccj high low).1
  | rdtc => exact RowSelected.rdtc.1
  | rdcj => exact RowSelected.rdcj.1

/-! ## The decoder -/

/-- The command of `i`'s row with its operands taken from the lanes of `w`, by the row's format (R48). -/
def withOperandsOf (w : Word) : Instr → Instr
  | .rdreg _ => .rdreg (laneB1 w)
  | .wrreg _ _ => .wrreg (laneB1 w) (laneB0 w)
  | .dectc _ _ _ => .dectc (laneB0 w) (laneB1 w) (laneB2 w)
  | .deccj _ _ => .deccj (laneB1 w) (laneB0 w)
  | .rdtc => .rdtc
  | .rdcj => .rdcj

theorem withOperandsOf_encode (i : Instr) : withOperandsOf (encode i) i = i := by
  cases i <;> simp [withOperandsOf, encode]

/-- A word that selects a row has zero in every lane that is no operand of the row's format, so it is its
operands' encoding. -/
theorem encode_withOperandsOf (h : i.row.selects w = true) : encode (withOperandsOf w i) = w := by
  rw [← packLanes_lanes w]
  cases i with
  | rdreg _ =>
    obtain ⟨hop, hB2, hB0⟩ := (rowRdreg_selects w).mp h
    simp [withOperandsOf, encode, hop, hB2, hB0]
  | wrreg _ _ =>
    obtain ⟨hop, hB2⟩ := (rowWrreg_selects w).mp h
    simp [withOperandsOf, encode, hop, hB2]
  | dectc _ _ _ => simp [withOperandsOf, encode, (rowDectc_selects w).mp h]
  | deccj _ _ =>
    obtain ⟨hop, hB2⟩ := (rowDeccj_selects w).mp h
    simp [withOperandsOf, encode, hop, hB2]
  | rdtc =>
    obtain ⟨hop, hB2, hB1, hB0⟩ := (rowRdtc_selects w).mp h
    simp [withOperandsOf, encode, hop, hB2, hB1, hB0]
  | rdcj =>
    obtain ⟨hop, hB2, hB1, hB0⟩ := (rowRdcj_selects w).mp h
    simp [withOperandsOf, encode, hop, hB2, hB1, hB0]

/-- The tests of the decode procedure find the row that the word selects (R54). -/
theorem decode_of_selects (h : i.row.selects w = true) : decode w = .ok (withOperandsOf w i) := by
  have hrow (r' : Row) (hr' : r' ∈ opcodeTable) : r'.selects w = decide (i.row = r') :=
    selects_eq_decide (row_mem_opcodeTable i) hr' h
  rw [decode, hrow rowRdreg (by decide), hrow rowWrreg (by decide), hrow rowDectc (by decide),
    hrow rowDeccj (by decide), hrow rowRdtc (by decide), hrow rowRdcj (by decide)]
  cases i <;> rfl

theorem exists_row_eq : ∀ r ∈ opcodeTable, ∃ i : Instr, i.row = r := by
  simp only [opcodeTable, List.forall_mem_cons]
  exact ⟨⟨.rdreg 0, rfl⟩, ⟨.wrreg 0 0, rfl⟩, ⟨.dectc 0 0 0, rfl⟩, ⟨.deccj 0 0, rfl⟩, ⟨.rdtc, rfl⟩,
    ⟨.rdcj, rfl⟩, nofun⟩

theorem decode_of_selects_none (h : ∀ r ∈ opcodeTable, r.selects w = false) :
    decode w = .error (rejection w) := by
  rw [decode, h rowRdreg (by decide), h rowWrreg (by decide), h rowDectc (by decide),
    h rowDeccj (by decide), h rowRdtc (by decide), h rowRdcj (by decide)]
  rfl

theorem selects_none_or_row (w : Word) :
    (∀ r ∈ opcodeTable, r.selects w = false) ∨ ∃ i : Instr, i.row.selects w = true := by
  by_cases h : ∃ r ∈ opcodeTable, r.selects w = true
  · obtain ⟨r, hr, hs⟩ := h
    obtain ⟨i, rfl⟩ := exists_row_eq r hr
    exact .inr ⟨i, hs⟩
  · exact .inl fun r hr => Bool.eq_false_iff.mpr fun hs => h ⟨r, hr, hs⟩

/-- Decoding is the inverse of encoding: each command's row is selected by its encoding, and each word that
selects a row is the encoding of what it decodes to. -/
theorem decode_eq_ok_iff : decode w = .ok i ↔ encode i = w := by
  constructor
  · intro h
    rcases selects_none_or_row w with hnone | ⟨j, hj⟩
    · simp [decode_of_selects_none hnone] at h
    · obtain rfl : withOperandsOf w j = i := Except.ok.inj ((decode_of_selects hj).symm.trans h)
      exact encode_withOperandsOf hj
  · rintro rfl
    rw [decode_of_selects (row_selects_encode i), withOperandsOf_encode]

theorem decode_eq_error_iff {e : DecodeError} :
    decode w = .error e ↔ (∀ r ∈ opcodeTable, r.selects w = false) ∧ rejection w = e := by
  constructor
  · intro h
    rcases selects_none_or_row w with hnone | ⟨j, hj⟩
    · exact ⟨hnone, Except.error.inj ((decode_of_selects_none hnone).symm.trans h)⟩
    · simp [decode_of_selects hj] at h
  · rintro ⟨hnone, rfl⟩
    exact decode_of_selects_none hnone

/-! ## The illegal words -/

theorem rejection_eq_reservedLane_iff :
    rejection w = .reservedLane ↔ 1 ≤ (opcodeOf w).toNat ∧ (opcodeOf w).toNat ≤ 6 := by
  simp [rejection]

theorem known_opcode_iff (b : Byte) :
    1 ≤ b.toNat ∧ b.toNat ≤ 6 ↔ b = 1 ∨ b = 2 ∨ b = 3 ∨ b = 4 ∨ b = 5 ∨ b = 6 := by
  simp only [← BitVec.toNat_inj, BitVec.reduceToNat]
  omega

/-- A known opcode with a non-zero bit in a lane that its format marks 0 (R50). -/
def ReservedLaneSet (w : Word) : Prop :=
  (opcodeOf w = 1 ∧ (laneB2 w ≠ 0 ∨ laneB0 w ≠ 0)) ∨ (opcodeOf w = 2 ∧ laneB2 w ≠ 0) ∨
  (opcodeOf w = 4 ∧ laneB2 w ≠ 0) ∨
  ((opcodeOf w = 5 ∨ opcodeOf w = 6) ∧ w.extractLsb' 0 24 ≠ (0 : BitVec 24))

theorem low24_eq_zero_iff (w : Word) :
    w.extractLsb' 0 24 = (0 : BitVec 24) ↔ laneB2 w = 0 ∧ laneB1 w = 0 ∧ laneB0 w = 0 := by
  simp only [← BitVec.toNat_inj, laneB2, laneB1, laneB0, toNat_slice, BitVec.reduceToNat]
  omega

/-- Opcode by opcode, the reserved lanes are what keeps a known opcode from selecting its row. -/
theorem decode_reservedLane_iff : decode w = .error .reservedLane ↔ ReservedLaneSet w := by
  rw [decode_eq_error_iff, rejection_eq_reservedLane_iff, known_opcode_iff]
  simp only [opcodeTable, List.forall_mem_cons, Bool.eq_false_iff, ne_eq, rowRdreg_selects,
    rowWrreg_selects, rowDectc_selects, rowDeccj_selects, rowRdtc_selects, rowRdcj_selects,
    ReservedLaneSet, low24_eq_zero_iff]
  by_cases hop : opcodeOf w = 1 ∨ opcodeOf w = 2 ∨ opcodeOf w = 3 ∨ opcodeOf w = 4 ∨ opcodeOf w = 5 ∨
    opcodeOf w = 6
  · rcases hop with hop | hop | hop | hop | hop | hop <;> simp [hop, imp_iff_not_or]
  · simp only [not_or] at hop
    simp only [hop, false_and, or_self, and_false]

theorem selects_none_of_unknown_opcode (h : (opcodeOf w).toNat = 0 ∨ 7 ≤ (opcodeOf w).toNat) :
    ∀ r ∈ opcodeTable, r.selects w = false := by
  intro r hr
  refine Bool.eq_false_iff.mpr fun hs => ?_
  have hrange := opcodeOf_pattern_range r hr
  rw [← opcodeOf_of_selects hr hs] at hrange
  omega

/-- A word selects no row when its opcode has none, or when its reserved lanes are not clear (R51). -/
theorem selects_none_iff (w : Word) :
    (∀ r ∈ opcodeTable, r.selects w = false) ↔
      (opcodeOf w).toNat = 0 ∨ 7 ≤ (opcodeOf w).toNat ∨ decode w = .error .reservedLane := by
  rw [decode_eq_error_iff, rejection_eq_reservedLane_iff]
  constructor
  · intro h
    by_cases hop : 1 ≤ (opcodeOf w).toNat ∧ (opcodeOf w).toNat ≤ 6
    · exact .inr (.inr ⟨h, hop⟩)
    · omega
  · rintro (h | h | ⟨h, -⟩)
    · exact selects_none_of_unknown_opcode (.inl h)
    · exact selects_none_of_unknown_opcode (.inr h)
    · exact h

/-! ## A step of an idle block that is presented a word -/

theorem step_command (hidle : s.inflight = none) {early : Bool} {more : List HostEvent}
    (hh : s.host = .command w early :: more) (hd : decode w = .ok i) :
    step s = exec i { s with host := more } := by
  simp only [step, fetch_idle_command hidle hh, hd]

theorem step_illegal (hidle : s.inflight = none) {early : Bool} {more : List HostEvent}
    (hh : s.host = .command w early :: more) {e : DecodeError} (hd : decode w = .error e) :
    step s = .next (raise .illegalCommand { s with host := more }) := by
  simp only [step, fetch_idle_command hidle hh, hd]

/-! ## The assembler lines -/

theorem packLanes_eq_add (opc b2 b1 b0 : Byte) :
    packLanes opc b2 b1 b0 = (opc.zeroExtend 32 <<< 24) + (b2.zeroExtend 32 <<< 16)
      + (b1.zeroExtend 32 <<< 8) + b0.zeroExtend 32 := by
  apply BitVec.eq_of_toNat_eq
  simp only [toNat_packLanes, BitVec.toNat_add, BitVec.toNat_shiftLeft, BitVec.toNat_setWidth,
    Nat.shiftLeft_eq, BitVec.truncate_eq_setWidth]
  omega

theorem encode_rdreg_eq_add (addr : Byte) :
    encode (.rdreg addr) = 0x01000000 + (addr.zeroExtend 32 <<< 8) := by
  simp [encode, packLanes_eq_add]

theorem encode_wrreg_eq_add (addr data : Byte) :
    encode (.wrreg addr data) = 0x02000000 + (addr.zeroExtend 32 <<< 8) + data.zeroExtend 32 := by
  simp [encode, packLanes_eq_add]

theorem encode_dectc_eq_add (low mid high : Byte) :
    encode (.dectc low mid high)
      = 0x03000000 + (high.zeroExtend 32 <<< 16) + (mid.zeroExtend 32 <<< 8) + low.zeroExtend 32 := by
  simp [encode, packLanes_eq_add]

theorem encode_deccj_eq_add (high low : Byte) :
    encode (.deccj high low) = 0x04000000 + (high.zeroExtend 32 <<< 8) + low.zeroExtend 32 := by
  simp [encode, packLanes_eq_add]

theorem ofAsm_toAsm (i : Instr) : Instr.ofAsm i.toAsm = some i := by cases i <;> rfl

theorem toAsm_of_ofAsm {l : AsmLine} (h : Instr.ofAsm l = some i) : l = i.toAsm := by
  obtain ⟨m, ops⟩ := l
  match ops with
  | [] | [_] | [_, _] | [_, _, _] =>
    simp only [Instr.ofAsm] at h
    split_ifs at h <;> cases h <;> simp_all [Instr.toAsm]
  | _ :: _ :: _ :: _ :: _ => cases h

theorem map_encode_ofAsm (h : encode i = w) : (Instr.ofAsm i.toAsm).map encode = some w := by
  rw [ofAsm_toAsm, Option.map_some, h]

/-! ## The bits that the decoders discard -/

theorem decodeTc_congr {low low' : Byte} (mid high : Byte)
    (h : (low.extractLsb' 5 3 : BitVec 3) = low'.extractLsb' 5 3) :
    decodeTc low mid high = decodeTc low' mid high := by
  rw [decodeTc_eq, decodeTc_eq]
  congr 1
  apply BitVec.eq_of_toNat_eq
  have hn := congrArg BitVec.toNat h
  rw [toNat_slice, toNat_slice] at hn
  rw [toNat_tcField, toNat_tcField]
  omega

theorem decodeCj_congr {low low' : Byte} (high : Byte)
    (h : (low.extractLsb' 2 6 : BitVec 6) = low'.extractLsb' 2 6) :
    decodeCj low high = decodeCj low' high := by
  rw [decodeCj_eq, decodeCj_eq]
  congr 1
  apply BitVec.eq_of_toNat_eq
  have hn := congrArg BitVec.toNat h
  rw [toNat_slice, toNat_slice] at hn
  rw [toNat_cjQ8, toNat_cjQ8]
  omega

theorem rdreg_responds_ok {addr d : Byte} {rest : List Answer} (hidle : s.inflight = none)
    (ha : s.answers = .ok d :: rest) :
    exec (.rdreg addr) s
      = .next (respond (.ok (byteResult d)) (afterEvents [.rd addr (.ok d)] rest s)) :=
  exec_responds_ok (ds := [d]) hidle rfl ha rfl

theorem low_byteResult (d : Byte) : ((byteResult d).extractLsb' 0 8 : Byte) = d := by
  apply BitVec.eq_of_toNat_eq
  rw [toNat_slice, byteResult, BitVec.toNat_setWidth]
  omega

/-! ## The result formats -/

/-- A command that responds OK responds with the result of its temporaries. -/
theorem exec_ok_result {u : Word} (h : exec i s = .next t) (ht : t.responses = s.responses ++ [.ok u]) :
    ∃ temps, resultOf i temps = some u := by
  rw [exec_idle (exec_next_idle h)] at h
  rcases transact_next h with ⟨ds, rest, r, -, -, hr, rfl⟩ | ⟨pre, x, post, ds, rest, e, -, -, -, rfl⟩ |
    ⟨pre, x, post, ds, wait, rest, -, -, -, -, rfl⟩
  case inl =>
    obtain rfl : r = u := by simpa using ht
    exact ⟨_, hr⟩
  case inr.inl => simp [Exn.response] at ht
  case inr.inr => simp at ht

/-- The format of a thermocouple result (R61). -/
def IsTcResult (r : Word) : Prop :=
  (∃ f : BitVec 19, r = f.signExtend 32) ∧ -262144 ≤ r.toInt ∧ r.toInt ≤ 262143

/-- The format of a cold-junction result (R61). -/
def IsCjResult (r : Word) : Prop :=
  (∃ q : BitVec 16, r = q.signExtend 32) ∧ -32768 ≤ r.toInt ∧ r.toInt ≤ 32764 ∧
    (r.extractLsb' 0 2 : BitVec 2) = 0

theorem isTcResult_decodeTc (low mid high : Byte) : IsTcResult (decodeTc low mid high) := by
  refine ⟨⟨_, rfl⟩, ?_⟩
  rw [decodeTc_eq, BitVec.toInt_signExtend_of_le (by decide)]
  set f : BitVec 19 := (high ++ mid ++ low : BitVec 24).extractLsb' 5 19
  have hlt := f.toInt_lt
  have hle := f.le_toInt
  omega

/-- The cold-junction result counts units of 2^-8, four for each unit of its field (R57). -/
theorem toInt_decodeCj (low high : Byte) :
    (decodeCj low high).toInt = 4 * ((high ++ low : BitVec 16).extractLsb' 2 14 : BitVec 14).toInt := by
  rw [decodeCj_eq, BitVec.toInt_signExtend_of_le (by decide), BitVec.toInt_eq_toNat_cond,
    BitVec.toInt_eq_toNat_cond, toNat_cjQ8, toNat_cjField]
  split_ifs <;> omega

theorem isCjResult_decodeCj (low high : Byte) : IsCjResult (decodeCj low high) := by
  have hr := toInt_decodeCj low high
  set f : BitVec 14 := (high ++ low : BitVec 16).extractLsb' 2 14
  have hlt := f.toInt_lt
  have hle := f.le_toInt
  refine ⟨⟨_, rfl⟩, by omega, by omega, ?_⟩
  apply BitVec.eq_of_toNat_eq
  rw [BitVec.toInt_eq_toNat_cond] at hr
  rw [toNat_slice, show (0 : BitVec 2).toNat = 0 from rfl]
  split_ifs at hr <;> omega

theorem resultOf_rdtc_eq_some {temps : Temps} {u : Word} (h : resultOf .rdtc temps = some u) :
    ∃ lo mid hi, u = decodeTc lo mid hi := by
  simp only [resultOf] at h
  split at h
  · exact ⟨_, _, _, (Option.some.inj h).symm⟩
  · cases h

theorem resultOf_rdcj_eq_some {temps : Temps} {u : Word} (h : resultOf .rdcj temps = some u) :
    ∃ lo hi, u = decodeCj lo hi := by
  simp only [resultOf] at h
  split at h
  · exact ⟨_, _, (Option.some.inj h).symm⟩
  · cases h

/-! ## The packed response -/

theorem statusOf_ne_three (r : Response) : statusOf r ≠ 3 := by
  cases r <;> simp [statusOf]

/-- STATUS alone tells the host which field to read (R60, R100). -/
theorem unpackResponse_packResponse (r : Response) : unpackResponse (packResponse r) = .ok r := by
  cases r <;> rfl

/-! ## The obligations -/

/-- Settles O2: a command's encoding selects its row and holds its operands. -/
theorem decodeOfEncodeIsTheCommand : Obligations.DecodeOfEncodeIsTheCommand :=
  fun _ => decode_eq_ok_iff.mpr rfl

/-- Settles O3: the lanes of a word that selects a row are the operands or zero. -/
theorem encodeOfDecodeIsTheWord : Obligations.EncodeOfDecodeIsTheWord :=
  fun _ _ => decode_eq_ok_iff.mp

/-- Settles O4: every row fixes the opcode, and no two rows fix the same one. -/
theorem opcodeRowsAreDisjoint : Obligations.OpcodeRowsAreDisjoint :=
  ⟨rfl, fun _ _ => beq_iff_eq, fun _ _ hr _ hr' => selected_row_unique hr hr'⟩

/-- Settles O5: a word that decodes is the encoding of its command, and that selects the command's row. -/
theorem decodeFollowsTheOpcodeMap : Obligations.DecodeFollowsTheOpcodeMap := by
  refine ⟨fun w i h => ⟨row_mem_opcodeTable i, ?_⟩, fun w => ?_⟩
  · rw [← decode_eq_ok_iff.mp h]
    exact row_selects_encode i
  · simp only [decode_eq_error_iff, exists_and_left, exists_eq', and_true]

/-- Settles O6: the opcode and the reserved lanes decide, and the rejected words are those of no row. -/
theorem reservedLanesMatchNoRow : Obligations.ReservedLanesMatchNoRow :=
  ⟨fun _ => decode_reservedLane_iff.symm, fun _ h => (decode_eq_error_iff.mp h).1, by
    simp only [List.forall_mem_cons]
    exact ⟨rfl, rfl, rfl, nofun⟩⟩

/-- Settles O7: a word that selects no row is rejected, and the step of a rejected word raises IllegalCommand
and does nothing else. -/
theorem illegalWordsRespondIllegalCmd : Obligations.IllegalWordsRespondIllegalCmd := by
  refine ⟨selects_none_iff, by decide, fun s w early more hidle hh hnone => ?_⟩
  rw [step_illegal hidle hh (decode_of_selects_none hnone)]
  simp [raise, respond, Exn.response, hidle]

/-- Settles O8: each line of R62 is the line of its command, whose encoding is the sum of its lanes. -/
theorem assemblerSyntaxEncodes : Obligations.AssemblerSyntaxEncodes :=
  ⟨fun _ => map_encode_ofAsm (encode_rdreg_eq_add _),
    fun _ _ => map_encode_ofAsm (encode_wrreg_eq_add _ _),
    fun _ _ _ => map_encode_ofAsm (encode_dectc_eq_add _ _ _),
    fun _ _ => map_encode_ofAsm (encode_deccj_eq_add _ _),
    map_encode_ofAsm (i := .rdtc) (by decide), map_encode_ofAsm (i := .rdcj) (by decide),
    encode_rdreg_eq_add, encode_wrreg_eq_add, encode_dectc_eq_add, encode_deccj_eq_add, by decide,
    by decide, fun _ i => ⟨toAsm_of_ofAsm, fun h => h ▸ ofAsm_toAsm i⟩⟩

/-- Settles O15: the decoded values depend on the kept bits only, and a reading responds with the decoded
value of its bytes. -/
theorem discardedBitsHaveNoInfluence : Obligations.DiscardedBitsHaveNoInfluence := by
  refine ⟨tcReadOrdersSpelledOut, cjReadOrdersSpelledOut, ?_, ?_, ?_, ?_, ?_⟩
  · intro low low' mid high s h
    simp only [exec, execDectc, decodeTc_congr mid high h]
  · intro high low low' s h
    simp only [exec, execDeccj, decodeCj_congr high h]
  · intro low low' mid high s more hidle h
    refine ⟨_, _, rdtc_responds_ok hidle rfl, rdtc_responds_ok hidle rfl, ?_⟩
    rw [decodeTc_congr mid high h]
    rfl
  · intro high low low' s more hidle h
    refine ⟨_, _, rdcj_responds_ok hidle rfl, rdcj_responds_ok hidle rfl, ?_⟩
    rw [decodeCj_congr high h]
    rfl
  · intro addr d s more hidle ha
    exact ⟨_, rdreg_responds_ok hidle ha, _, rfl, low_byteResult d⟩

/-- Settles O28: an OK response carries the result of the command's temporaries, a byte, zero or a decoded
value. -/
theorem resultsHaveTheirFormat : Obligations.ResultsHaveTheirFormat := by
  intro i s t r h ht
  obtain ⟨temps, hr⟩ := exec_ok_result h ht
  cases i with
  | rdreg addr =>
    obtain ⟨data, -, rfl⟩ := Option.map_eq_some_iff.mp hr
    exact ⟨data, rfl⟩
  | wrreg addr data => exact (Option.some.inj hr).symm
  | dectc low mid high => exact Option.some.inj hr ▸ isTcResult_decodeTc low mid high
  | deccj high low => exact Option.some.inj hr ▸ isCjResult_decodeCj low high
  | rdtc =>
    obtain ⟨lo, mid, hi, rfl⟩ := resultOf_rdtc_eq_some hr
    exact isTcResult_decodeTc lo mid hi
  | rdcj =>
    obtain ⟨lo, hi, rfl⟩ := resultOf_rdcj_eq_some hr
    exact isCjResult_decodeCj lo hi

/-- Settles O29, by the three kinds of response. -/
theorem packedResponsesReadBack : Obligations.PackedResponsesReadBack := by
  refine ⟨fun _ => rfl, fun _ => rfl, rfl, fun r => ⟨statusOf_ne_three r, fun h => ?_, r,
    unpackResponse_packResponse r, rfl⟩⟩
  cases r with
  | ok result => exact absurd rfl h
  | transportError e => rfl
  | illegalCmd => rfl

/-- Settles O34: the word at the head of an idle block's host is what the step decodes. -/
theorem stepRunsTheDecodedCommand : Obligations.StepRunsTheDecodedCommand :=
  fun _ _ _ _ _ hidle => step_command hidle

end Sys2Proof.Proofs
end

section
/-! SUPPORT. The family '40_decoders.md': the two decoder commands. Neither has a bus transaction, so on an
idle block each does nothing but respond (R64). A decoded value is the signed value of its field, which is the
signed value of the whole word less the discarded bits (R67), and it takes every value of the field (R68). -/

namespace Sys2Proof.Proofs

open Sys2Proof.Machine Sys2Proof.Safety Sys2Proof.Laws

variable {s : State} {i : Instr}

/-! ## A command without a bus transaction -/

theorem respond_of_idle (hidle : s.inflight = none) (r : Response) :
    respond r s = { s with responses := s.responses ++ [r] } := by
  simp only [respond, hidle]

/-- A command whose rule lists no transaction only responds (R64). -/
theorem exec_without_txns {r : Word} (hidle : s.inflight = none) (htxns : txnsOf s.config i = [])
    (hr : resultOf i {} = some r) :
    exec i s = .next { s with responses := s.responses ++ [.ok r] } := by
  rw [← respond_of_idle hidle, exec_idle hidle, htxns, transact_nil]
  simp only [finish, hr]

theorem dectc_responds (low mid high : Byte) (hidle : s.inflight = none) :
    exec (.dectc low mid high) s
      = .next { s with responses := s.responses ++ [.ok (decodeTc low mid high)] } :=
  exec_without_txns hidle rfl rfl

theorem deccj_responds (high low : Byte) (hidle : s.inflight = none) :
    exec (.deccj high low) s
      = .next { s with responses := s.responses ++ [.ok (decodeCj low high)] } :=
  exec_without_txns hidle rfl rfl

/-! ## The result integer of a decoder -/

/-- Dropping low bits moves a signed value down by what the dropped bits count (R67). -/
theorem toInt_eq_high_add_low {n k : Nat} (hn : 0 < n) (w : BitVec (n + k)) :
    w.toInt = 2 ^ k * (w.extractLsb' k n).toInt + (w.extractLsb' 0 k).toNat := by
  have hsplit : w.extractLsb' k n ++ w.extractLsb' 0 k = w := by
    rw [BitVec.extractLsb'_append_extractLsb'_eq_extractLsb' (Nat.zero_add k).symm,
      BitVec.extractLsb'_eq_self]
  conv_lhs => rw [← hsplit, BitVec.toInt_append, if_neg (by simpa using hn.ne')]

theorem toInt_decodeTc (low mid high : Byte) :
    (decodeTc low mid high).toInt
      = ((high ++ mid ++ low : BitVec 24).extractLsb' 5 19 : BitVec 19).toInt := by
  rw [decodeTc_eq, BitVec.toInt_signExtend_of_le (by decide)]

/-- Q8 is W16 with its two low bits masked out (R66). -/
theorem decodeCj_eq_mask (low high : Byte) :
    decodeCj low high = ((high ++ low : BitVec 16) &&& 0xFFFC).signExtend 32 := by
  rw [decodeCj_eq, mask_low_two]

theorem toInt_decodeCj_eq_mask (low high : Byte) :
    (decodeCj low high).toInt = ((high ++ low : BitVec 16) &&& 0xFFFC).toInt := by
  rw [decodeCj_eq_mask, BitVec.toInt_signExtend_of_le (by decide)]

theorem toInt_tcField_eq_cond (w : BitVec 24) :
    (w.extractLsb' 5 19 : BitVec 19).toInt
      = if w.toNat / 32 < 2 ^ 18 then (w.toNat / 32 : Int) else (w.toNat / 32 : Int) - 2 ^ 19 := by
  rw [BitVec.toInt_eq_toNat_cond, toNat_slice]
  split_ifs <;> omega

theorem toInt_cjField_eq_cond (w : BitVec 16) :
    (w.extractLsb' 2 14 : BitVec 14).toInt
      = if w.toNat / 4 < 2 ^ 13 then (w.toNat / 4 : Int) else (w.toNat / 4 : Int) - 2 ^ 14 := by
  rw [BitVec.toInt_eq_toNat_cond, toNat_slice]
  split_ifs <;> omega

/-! ## The values that a result takes -/

theorem exists_toInt_eq_iff {n : Nat} (hn : 0 < n) (z : Int) :
    (∃ f : BitVec n, f.toInt = z) ↔ -2 ^ (n - 1) ≤ z ∧ z < 2 ^ (n - 1) := by
  constructor
  · rintro ⟨f, rfl⟩
    exact ⟨f.le_toInt, f.toInt_lt⟩
  · rintro ⟨hle, hlt⟩
    exact ⟨BitVec.ofInt n z, BitVec.toInt_ofInt_eq_self hn hle hlt⟩

theorem exists_tcField_eq (f : BitVec 19) :
    ∃ low mid high : Byte, ((high ++ mid ++ low : BitVec 24).extractLsb' 5 19 : BitVec 19) = f := by
  refine ⟨(f ++ 0#5).extractLsb' 0 8, (f ++ 0#5).extractLsb' 8 8, (f ++ 0#5).extractLsb' 16 8, ?_⟩
  apply BitVec.eq_of_toNat_eq
  simp only [toNat_slice, toNat_concat]
  omega

theorem exists_cjField_eq (f : BitVec 14) :
    ∃ low high : Byte, ((high ++ low : BitVec 16).extractLsb' 2 14 : BitVec 14) = f := by
  refine ⟨(f ++ 0#2).extractLsb' 0 8, (f ++ 0#2).extractLsb' 8 8, ?_⟩
  apply BitVec.eq_of_toNat_eq
  simp only [toNat_slice, toNat_concat]
  omega

/-- The thermocouple results that have a property are the 19-bit integers that have it (R68). -/
theorem exists_decodeTc_iff (P : Int → Prop) :
    (∃ low mid high : Byte, P (decodeTc low mid high).toInt) ↔
      ∃ n : Int, -262144 ≤ n ∧ n ≤ 262143 ∧ P n := by
  constructor
  · rintro ⟨low, mid, high, hP⟩
    obtain ⟨-, hle, hlt⟩ := isTcResult_decodeTc low mid high
    exact ⟨_, hle, hlt, hP⟩
  · rintro ⟨n, hle, hlt, hP⟩
    obtain ⟨f, rfl⟩ := (exists_toInt_eq_iff (n := 19) (by decide) n).mpr ⟨hle, by omega⟩
    obtain ⟨low, mid, high, rfl⟩ := exists_tcField_eq f
    exact ⟨low, mid, high, by rwa [toInt_decodeTc]⟩

/-- The cold-junction results that have a property are the fourfold 14-bit integers that have it (R68). -/
theorem exists_decodeCj_iff (P : Int → Prop) :
    (∃ low high : Byte, P (decodeCj low high).toInt) ↔
      ∃ k : Int, -8192 ≤ k ∧ k ≤ 8191 ∧ P (4 * k) := by
  constructor
  · rintro ⟨low, high, hP⟩
    rw [toInt_decodeCj] at hP
    obtain ⟨hle, hlt⟩ := (exists_toInt_eq_iff (n := 14) (by decide) _).mp ⟨_, rfl⟩
    exact ⟨_, hle, by omega, hP⟩
  · rintro ⟨k, hle, hlt, hP⟩
    obtain ⟨f, rfl⟩ := (exists_toInt_eq_iff (n := 14) (by decide) k).mpr ⟨hle, by omega⟩
    obtain ⟨low, high, rfl⟩ := exists_cjField_eq f
    exact ⟨low, high, by rwa [toInt_decodeCj]⟩

/-! ## The temperatures -/

theorem tcCelsius_eq_div (r : Word) : tcCelsius r = (r.toInt : Rat) / 128 := by
  rw [tcCelsius_eq]; norm_num

theorem cjCelsius_eq_div (r : Word) : cjCelsius r = (r.toInt : Rat) / 256 := by
  rw [cjCelsius_eq]; norm_num

/-- Four units of 2^-8 are one of 2^-6 (R57). -/
theorem four_mul_div_256 (k : Int) : ((4 * k : Int) : Rat) / 256 = (k : Rat) / 64 := by
  push_cast; ring

/-! ## The obligations -/

/-- Settles O9: the word's opcode alone selects the row, and DECTC has no transaction. -/
theorem dectcRespondsWithTheField : Obligations.DectcRespondsWithTheField :=
  ⟨fun w hop => decode_of_selects (i := .dectc 0 0 0) ((rowDectc_selects w).mpr hop),
    fun low mid high _ hidle => dectc_responds low mid high hidle⟩

/-- Settles O10: opcode and reserved lane select the row, and Q8 is the masked word. -/
theorem deccjRespondsWithTheField : Obligations.DeccjRespondsWithTheField := by
  refine ⟨fun w hop hB2 => decode_of_selects (i := .deccj 0 0) ((rowDeccj_selects w).mpr ⟨hop, hB2⟩),
    fun high low s hidle => ?_⟩
  rw [deccj_responds high low hidle, decodeCj_eq_mask]

/-- Settles O11: the one result is the decoded value of the operands. -/
theorem decodersArePureAndTotal : Obligations.DecodersArePureAndTotal :=
  ⟨fun low mid high => ⟨decodeTc low mid high, fun _ hidle => dectc_responds low mid high hidle⟩,
    fun high low => ⟨decodeCj low high, fun _ hidle => deccj_responds high low hidle⟩⟩

/-- Settles O12: the result integer is the field's, once on the scale of Q8 and once on that of F14. -/
theorem decodersDenoteTheFieldsTemperature : Obligations.DecodersDenoteTheFieldsTemperature := by
  refine ⟨fun low mid high s hidle => ⟨_, dectc_responds low mid high hidle, ?_⟩,
    fun high low s hidle => ⟨_, deccj_responds high low hidle, ?_, ?_⟩⟩
  · rw [tcCelsius_eq_div, toInt_decodeTc]
  · rw [cjCelsius_eq_div, toInt_decodeCj_eq_mask]
  · rw [cjCelsius_eq_div, toInt_decodeCj, four_mul_div_256]

/-- Settles O13: each formulation is the field's signed value, read from the word's number or from the word's
signed value less its discarded bits. -/
theorem decoderFormulationsAgree : Obligations.DecoderFormulationsAgree := by
  constructor
  · rintro low mid high w rfl
    have hsplit := toInt_eq_high_add_low (n := 19) (k := 5) (by decide) (high ++ mid ++ low)
    rw [toInt_decodeTc]
    exact ⟨toInt_tcField_eq_cond _, by omega⟩
  · rintro low high w rfl
    have hsplit := toInt_eq_high_add_low (n := 14) (k := 2) (by decide) (high ++ low)
    refine ⟨?_, toInt_decodeCj_eq_mask low high, ?_⟩
    · rw [toInt_decodeCj, toInt_cjField_eq_cond]
    · rw [toInt_decodeCj]
      omega

/-- Settles O14: every field value is that of some bytes, so integers and temperatures are those of the
field's range. -/
theorem decoderResultsFillTheirRanges : Obligations.DecoderResultsFillTheirRanges := by
  refine ⟨fun n => ?_, fun n => ?_, fun q => ?_, fun q => ?_⟩
  · simp only [exists_decodeTc_iff (· = n), exists_eq_right_right]
  · simp only [exists_decodeCj_iff (· = n), eq_comm (a := n)]
  · simp only [tcCelsius_eq_div, exists_decodeTc_iff (fun n => (n : Rat) / 128 = q), eq_comm (a := q)]
  · simp only [cjCelsius_eq_div, exists_decodeCj_iff (fun k => (k : Rat) / 256 = q), four_mul_div_256,
      eq_comm (a := q)]

end Sys2Proof.Proofs
end

section
/-! SUPPORT. The family '41_accessor.md': the accessor commands RDREG and WRREG. The rule of each lists one bus
transaction, and the transport's answer to it is the command's outcome (R73): one lemma per answer, for any
such command. -/

namespace Sys2Proof.Proofs

open Sys2Proof.Machine Sys2Proof.Laws

variable {s : State} {i : Instr} {x : Txn} {more : List Answer}

/-! ## A command with one bus transaction -/

/-- The response to an idle block's command joins the outputs after the event of its transaction. -/
theorem respond_answered_of_idle (hidle : s.inflight = none) (r : Response) (ev : BusEvent) :
    respond r (answered ev more s)
      = { s with answers := more, trace := s.trace ++ [ev], responses := s.responses ++ [r] } :=
  respond_of_idle (s := answered ev more s) hidle r

theorem exec_one_txn_ok {d : Byte} {r : Word} (hidle : s.inflight = none)
    (htxns : txnsOf s.config i = [x]) (ha : s.answers = .ok d :: more)
    (hr : resultOf i (x.store {} d) = some r) :
    exec i s = .next { s with
      answers := more, trace := s.trace ++ [x.okEvent d], responses := s.responses ++ [.ok r] } := by
  rw [exec_idle hidle, htxns, transact_responds_ok (ds := [d]) rfl ha hr]
  exact congrArg Host.Outcome.next (respond_answered_of_idle hidle (.ok r) (x.okEvent d))

theorem exec_one_txn_err {e : TransportError} (hidle : s.inflight = none)
    (htxns : txnsOf s.config i = [x]) (ha : s.answers = .err e :: more) :
    exec i s = .next { s with
      answers := more, trace := s.trace ++ [x.errEvent e],
      responses := s.responses ++ [.transportError e] } := by
  rw [exec_idle hidle, htxns, transact_err _ _ _ _ ha, raise, respond_answered_of_idle hidle]
  rfl

theorem exec_one_txn_silent (hidle : s.inflight = none) (htxns : txnsOf s.config i = [x])
    (ha : s.answers = []) : exec i s = .next { s with inflight := some ⟨i, {}, x, []⟩ } := by
  rw [exec_idle hidle, htxns, transact_silent _ _ _ _ ha]
  simp only [stayBusy, ha]

/-! ## The obligations -/

/-- Settles O1: each word is the encoding of its command. -/
theorem decodeReadsTheSpecsWords : Obligations.DecodeReadsTheSpecsWords := by
  simp only [Obligations.DecodeReadsTheSpecsWords, decode_eq_ok_iff]
  decide

/-- Settles O16: opcode and reserved lanes select the row, and the rule is one read into the temporary whose
byte is the result. -/
theorem rdregReadsOneRegister : Obligations.RdregReadsOneRegister := by
  refine ⟨fun w hop hB2 hB0 =>
      decode_of_selects (i := .rdreg 0) ((rowRdreg_selects w).mpr ⟨hop, hB2, hB0⟩),
    fun addr data s more hidle ha => ?_,
    fun addr e s more hidle ha => exec_one_txn_err (x := .read .t addr) hidle rfl ha,
    fun addr s hidle ha => exec_one_txn_silent hidle rfl ha⟩
  rw [← byteResult_eq]
  exact exec_one_txn_ok (x := .read .t addr) hidle rfl ha rfl

/-- Settles O17: opcode and reserved lane select the row, and the rule is one write, whose result is 0. -/
theorem wrregWritesOneRegister : Obligations.WrregWritesOneRegister :=
  ⟨fun w hop hB2 => decode_of_selects (i := .wrreg 0 0) ((rowWrreg_selects w).mpr ⟨hop, hB2⟩),
    fun addr data _ _ _ hidle ha => exec_one_txn_ok (x := .write addr data) hidle rfl ha rfl,
    fun addr data _ _ _ hidle ha => exec_one_txn_err (x := .write addr data) hidle rfl ha,
    fun _ _ _ hidle ha => exec_one_txn_silent hidle rfl ha⟩

end Sys2Proof.Proofs
end

section
/-! SUPPORT. The family '42_readings.md': the reading commands RDTC and RDCJ. A read that fails ends its
command after the events of the reads before it (R82), said once for any command; a read order arranges
addresses, bytes, events and answers alike, so a reading is its register reads and the decode (R83). -/

namespace Sys2Proof.Proofs

open Sys2Proof.Machine Sys2Proof.Laws

variable {s : State} {i : Instr} {more : List Answer}

/-! ## The outputs of a command on an idle block -/

theorem respond_afterEvents_of_idle (hidle : s.inflight = none) (r : Response) (evs : List BusEvent) :
    respond r (afterEvents evs more s)
      = { s with answers := more, trace := s.trace ++ evs, responses := s.responses ++ [r] } :=
  respond_of_idle (s := afterEvents evs more s) hidle r

/-- A command whose `k`-th transaction fails (R82): the events of those before it, and its own. -/
theorem exec_fails_at {ds : List Byte} {e : TransportError} {k : Nat} {ev : BusEvent}
    (hidle : s.inflight = none) (hl : ds.length = (txnsOf s.config i).length)
    (ha : s.answers = (ds.map Answer.ok).take k ++ .err e :: more)
    (hev : ((txnsOf s.config i).map (·.errEvent e))[k]? = some ev) :
    exec i s = .next { s with
      answers := more
      trace := s.trace ++ (okEvents (txnsOf s.config i) ds).take k ++ [ev]
      responses := s.responses ++ [.transportError e] } := by
  rw [List.getElem?_map, Option.map_eq_some_iff] at hev
  obtain ⟨x, hx, rfl⟩ := hev
  obtain ⟨hk, rfl⟩ := List.getElem?_eq_some_iff.mp hx
  have hsplit : txnsOf s.config i
      = (txnsOf s.config i).take k ++ (txnsOf s.config i)[k] :: (txnsOf s.config i).drop (k + 1) := by
    rw [← List.drop_eq_getElem_cons, List.take_append_drop]
  have hlk : (ds.take k).length = ((txnsOf s.config i).take k).length := by simp [hl]
  have hfail := transact_responds_err (cmd := i) (temps := {}) (x := (txnsOf s.config i)[k])
    (post := (txnsOf s.config i).drop (k + 1)) hlk (by rw [ha, List.map_take])
  rw [← hsplit, answered_afterOk] at hfail
  rw [exec_idle hidle, hfail, raise, respond_afterEvents_of_idle hidle, List.append_assoc, okEvents,
    okEvents, List.take_zipWith]
  rfl

/-! ## The read orders -/

theorem zipWith_tcArrange {α β γ : Type} (f : α → β → γ) (o : Config.TcOrder) (a b c : α) (x y z : β) :
    List.zipWith f (tcArrange o a b c) (tcArrange o x y z) = tcArrange o (f a x) (f b y) (f c z) := by
  cases o <;> rfl

theorem zipWith_cjArrange {α β γ : Type} (f : α → β → γ) (o : Config.CjOrder) (a b : α) (x y : β) :
    List.zipWith f (cjArrange o a b) (cjArrange o x y) = cjArrange o (f a x) (f b y) := by
  cases o <;> rfl

/-- The events of RDTC's reads when they fail are at the addresses in the read order. -/
theorem errEvents_rdtc (p : Config.Params) (e : TransportError) :
    (txnsOf p .rdtc).map (·.errEvent e)
      = (tcArrange p.tcReadOrder p.addrTcLo p.addrTcMid p.addrTcHi).map (.rd · (.err e)) := by
  rw [txnsOf, rdtcTxns, map_tcArrange, map_tcArrange]
  rfl

theorem errEvents_rdcj (p : Config.Params) (e : TransportError) :
    (txnsOf p .rdcj).map (·.errEvent e)
      = (cjArrange p.cjReadOrder p.addrCjLo p.addrCjHi).map (.rd · (.err e)) := by
  rw [txnsOf, rdcjTxns, map_cjArrange, map_cjArrange]
  rfl

/-! ## The obligations -/

/-- Settles O19: three Ok answers fill the three lanes in any order, and an Err at the `k`-th read ends the
command with the address that the order has there. -/
theorem rdtcReadsAndDecodes : Obligations.RdtcReadsAndDecodes := by
  refine ⟨decode_eq_ok_iff.mpr (by decide), tcReadOrdersSpelledOut, fun lo mid hi s more hidle ha => ?_,
    fun lo mid hi addr e k s more hidle ha haddr => ?_⟩
  · rw [rdtc_responds_ok hidle ha, respond_afterEvents_of_idle hidle, decodeTc_eq]
  · rw [← okEvents_rdtc]
    exact exec_fails_at hidle (by simp [txnsOf, rdtcTxns]) (by rw [map_tcArrange, ha])
      (by rw [errEvents_rdtc, List.getElem?_map, haddr, Option.map_some])

/-- Settles O20: likewise with two reads, and Q8 is the masked word. -/
theorem rdcjReadsAndDecodes : Obligations.RdcjReadsAndDecodes := by
  refine ⟨decode_eq_ok_iff.mpr (by decide), cjReadOrdersSpelledOut, fun lo hi s more hidle ha => ?_,
    fun lo hi addr e k s more hidle ha haddr => ?_⟩
  · rw [rdcj_responds_ok hidle ha, respond_afterEvents_of_idle hidle, decodeCj_eq_mask]
  · rw [← okEvents_rdcj]
    exact exec_fails_at hidle (by simp [txnsOf, rdcjTxns]) (by rw [map_cjArrange, ha])
      (by rw [errEvents_rdcj, List.getElem?_map, haddr, Option.map_some])

/-- Settles O21: with the bytes named in the order in which they are read, each RDREG takes the next answer,
and its event is the one that the reading has at that place. -/
theorem readingsEqualTheirParts : Obligations.ReadingsEqualTheirParts := by
  refine ⟨tcReadOrdersSpelledOut, cjReadOrdersSpelledOut, ?_, ?_⟩
  · intro lo mid hi a b c s more hidle ha haddrs
    obtain ⟨x, y, z, hbytes⟩ := List.length_eq_three.mp (length_tcArrange s.config.tcReadOrder lo mid hi)
    have hparts : s.answers = .ok x :: .ok y :: .ok z :: more := by
      rw [ha, ← map_tcArrange, hbytes]; rfl
    have hevents := zipWith_tcArrange (fun addr d => BusEvent.rd addr (.ok d)) s.config.tcReadOrder
      s.config.addrTcLo s.config.addrTcMid s.config.addrTcHi lo mid hi
    rw [← haddrs, hbytes] at hevents
    refine ⟨_, _, _, _, _, _, rdtc_responds_ok hidle ha, rdreg_responds_ok hidle hparts,
      rdreg_responds_ok rfl rfl, rdreg_responds_ok rfl rfl, ?_, dectc_responds lo mid hi rfl, rfl, rfl, ?_,
      rfl⟩
    · rw [← map_tcArrange (fun d : Byte => Response.ok ((0 : BitVec 24) ++ d)), hbytes]
      simp [afterEvents, byteResult_eq]
    · simp [afterEvents, ← hevents]
  · intro lo hi a b s more hidle ha haddrs
    obtain ⟨x, y, hbytes⟩ := List.length_eq_two.mp (length_cjArrange s.config.cjReadOrder lo hi)
    have hparts : s.answers = .ok x :: .ok y :: more := by
      rw [ha, ← map_cjArrange, hbytes]; rfl
    have hevents := zipWith_cjArrange (fun addr d => BusEvent.rd addr (.ok d)) s.config.cjReadOrder
      s.config.addrCjLo s.config.addrCjHi lo hi
    rw [← haddrs, hbytes] at hevents
    refine ⟨_, _, _, _, _, rdcj_responds_ok hidle ha, rdreg_responds_ok hidle hparts,
      rdreg_responds_ok rfl rfl, ?_, deccj_responds hi lo rfl, rfl, rfl, ?_, rfl⟩
    · rw [← map_cjArrange (fun d : Byte => Response.ok ((0 : BitVec 24) ++ d)), hbytes]
      simp [afterEvents, byteResult_eq]
    · simp [afterEvents, ← hevents]

end Sys2Proof.Proofs
end

section
/-! SUPPORT. The family '60_exceptions.md': the exceptions and what the block does with them. A transport error
is handed on unread (R86, U12): each shared operation commutes with a renaming of the errors, so `transact`
does, so a step does. The response tells a failed command from one that succeeded (R85, R91). -/

namespace Sys2Proof.Proofs

open Sys2Proof.Machine Sys2Proof.Safety Sys2Proof.Laws

variable {s : State}

/-! ## Renaming the transport errors of a state

The parameters, the command in flight and the host's events hold no transport error; the answers to come and
the two outputs do. -/

section Renaming

variable (g : TransportError → TransportError) (s : State)

@[simp] theorem renameErrors_config : (renameErrors g s).config = s.config := rfl
@[simp] theorem renameErrors_inflight : (renameErrors g s).inflight = s.inflight := rfl
@[simp] theorem renameErrors_host : (renameErrors g s).host = s.host := rfl
@[simp] theorem renameErrors_answers :
    (renameErrors g s).answers = s.answers.map (renameAnswer g) := rfl

theorem renameEvent_okEvent (x : Txn) (d : Byte) : renameEvent g (x.okEvent d) = x.okEvent d := by
  cases x <;> rfl

theorem renameEvent_errEvent (x : Txn) (e : TransportError) :
    renameEvent g (x.errEvent e) = x.errEvent (g e) := by
  cases x <;> rfl

theorem renameErrors_respond (r : Response) :
    renameErrors g (respond r s) = respond (renameResponse g r) (renameErrors g s) := by
  simp [renameErrors, respond]

theorem renameErrors_raise_transportError (e : TransportError) :
    renameErrors g (raise (.transportError e) s) = raise (.transportError (g e)) (renameErrors g s) :=
  renameErrors_respond g s _

theorem renameErrors_raise_illegalCommand :
    renameErrors g (raise .illegalCommand s) = raise .illegalCommand (renameErrors g s) :=
  renameErrors_respond g s _

theorem renameErrors_answered (ev : BusEvent) (more : List Answer) :
    renameErrors g (answered ev more s)
      = answered (renameEvent g ev) (more.map (renameAnswer g)) (renameErrors g s) := by
  simp [renameErrors, answered]

theorem renameErrors_stayBusy (f : Flight) (more : List Answer) :
    renameErrors g (stayBusy f more s)
      = stayBusy f (more.map (renameAnswer g)) (renameErrors g s) := rfl

/-! ## The operations commute with the renaming -/

theorem finish_renameErrors (cmd : Instr) (temps : Temps) :
    finish cmd temps (renameErrors g s) = mapState (renameErrors g) (finish cmd temps s) := by
  unfold finish
  cases resultOf cmd temps with
  | none => rfl
  | some r => exact congrArg Host.Outcome.next (renameErrors_respond g s (.ok r)).symm

/-- The kind of the next answer decides what happens, and the renaming keeps its kind: an error is put into the
event and the response, and read by neither. -/
theorem transact_renameErrors (cmd : Instr) (txns : List Txn) :
    ∀ (temps : Temps) (s : State), transact cmd temps txns (renameErrors g s)
      = mapState (renameErrors g) (transact cmd temps txns s) := by
  induction txns with
  | nil => exact fun temps s => finish_renameErrors g s cmd temps
  | cons x xs ih =>
    intro temps s
    rcases transact_cases cmd temps x xs s with ⟨ha, ht⟩ | ⟨more, ha, ht⟩ | ⟨e, more, ha, ht⟩ |
      ⟨d, more, ha, ht⟩ <;> rw [ht]
    · rw [transact_silent _ _ _ _ (by rw [renameErrors_answers, ha]; rfl)]
      rfl
    · rw [transact_later _ _ _ _ (by rw [renameErrors_answers, ha]; rfl)]
      rfl
    · rw [transact_err _ _ _ _ (e := g e) (by rw [renameErrors_answers, ha]; rfl), mapState,
        renameErrors_raise_transportError, renameErrors_answered, renameEvent_errEvent]
    · rw [transact_ok _ _ _ _ (d := d) (by rw [renameErrors_answers, ha]; rfl), ← ih,
        renameErrors_answered, renameEvent_okEvent]

theorem exec_renameErrors (i : Instr) :
    exec i (renameErrors g s) = mapState (renameErrors g) (exec i s) := by
  cases hf : s.inflight with
  | none => rw [exec_idle hf, exec_idle (s := renameErrors g s) hf]; exact transact_renameErrors g i _ _ s
  | some f => rw [exec_busy hf, exec_busy (s := renameErrors g s) hf]; rfl

/-- What is found at the host port, with its state mapped. -/
def mapFetch (h : State → State) : Fetch → Fetch
  | .quiet => .quiet
  | .reset s => .reset (h s)
  | .command w s => .command w (h s)
  | .busy f => .busy f
  | .refuse r => .refuse r

/-- What is found at the host port is a matter of the flight and of the host's events. -/
theorem fetch_renameErrors : fetch (renameErrors g s) = mapFetch (renameErrors g) (fetch s) := by
  unfold fetch
  rw [renameErrors_inflight, renameErrors_host]
  cases s.inflight with
  | none => rcases s.host with _ | ⟨_ | _, more⟩ <;> rfl
  | some f => rcases s.host with _ | ⟨⟨w, _ | _⟩ | ⟨_ | _⟩, more⟩ <;> rfl

end Renaming

/-! ## The error of a failed transaction, and the idle block -/

theorem errorIn_errEvent (x : Txn) (e : TransportError) : errorIn (x.errEvent e) = some e := by
  cases x <;> rfl

theorem fetch_idle_quiet (hidle : s.inflight = none) (hh : s.host = []) : fetch s = .quiet := by
  simp only [fetch, hidle, hh]

/-! ## The obligations -/

/-- Settles O31, by what the block finds at the host port: a command performed or resumed is its transactions,
and nothing else that a step does meets a transport error. -/
theorem transportErrorsAreNeverInterpreted : Obligations.TransportErrorsAreNeverInterpreted := by
  intro g s
  unfold step
  rw [fetch_renameErrors]
  cases fetch s with
  | quiet => rfl
  | reset s' => rfl
  | command w s' =>
    cases hd : decode w with
    | ok i => simpa only [mapFetch, hd] using exec_renameErrors g s' i
    | error e =>
      simp only [mapFetch, hd]
      exact congrArg Host.Outcome.next (renameErrors_raise_illegalCommand g s').symm
  | busy f => exact transact_renameErrors g f.cmd _ f.temps s
  | refuse r => rfl

/-- Settles O27: of the two ways to respond, OK comes after events that are all Ok, and the transport error is
that of the one event after them; a command that waits has not responded. -/
theorem statusTellsFailureFromSuccess : Obligations.StatusTellsFailureFromSuccess := by
  intro i s t r evs h hr hevs
  rw [exec_idle (exec_next_idle h)] at h
  rcases transact_next h with ⟨ds, rest, u, -, -, -, rfl⟩ | ⟨pre, x, post, ds, rest, e, -, -, -, rfl⟩ |
    ⟨pre, x, post, ds, wait, rest, -, -, -, -, rfl⟩
  case inl =>
    obtain rfl : Response.ok u = r := by simpa using hr
    obtain rfl : okEvents (txnsOf s.config i) ds = evs := by simpa using hevs
    exact ⟨iff_of_true rfl fun _ => errorIn_of_mem_okEvents, fun hne => absurd rfl hne⟩
  case inr.inl =>
    obtain rfl : Response.transportError e = r := by simpa [Exn.response] using hr
    obtain rfl : okEvents pre ds ++ [x.errEvent e] = evs := by simpa using hevs
    refine ⟨iff_of_false (by simp [statusOf]) fun hok => ?_, fun _ => ⟨e, rfl, ?_⟩⟩
    · have hlast := hok (x.errEvent e) (by simp)
      simp [errorIn_errEvent] at hlast
    · simp [errorIn_errEvent]
  case inr.inr => simp at hr

/-- Settles O30: raising is responding with the exception's error response, by definition. -/
theorem raisingEndsTheCommand : Obligations.RaisingEndsTheCommand :=
  ⟨fun _ _ => rfl, fun _ => rfl⟩

/-- Settles O39: such a block finds nothing at the host port. -/
theorem idleBlockRests : Obligations.IdleBlockRests := by
  intro s hidle hh
  simp only [step, fetch_idle_quiet hidle hh]

end Sys2Proof.Proofs
end

section
/-! SUPPORT. The family '70_reset_and_hazards.md': reset, and what can go wrong in a run. A step uses up events
of the host and nothing else of the inputs but answers (R105); it comes to a next state from every idle block,
and from a busy one that meets the invariant and whose host waits (R103, R111); and a command waits only for an
answer that is not there (R110, R113). -/

namespace Sys2Proof.Proofs

open Sys2Proof.Machine Sys2Proof.Safety Sys2Proof.Laws

variable {s t : State} {cmd i : Instr} {temps : Temps} {txns : List Txn} {f : Flight} {w : Word}
  {early : Bool} {more : List HostEvent}

/-! ## What a step leaves of its inputs -/

theorem transact_keeps_inputs (h : transact cmd temps txns s = .next t) :
    t.config = s.config ∧ t.host = s.host := by
  rcases transact_responds_or_waits h with ⟨r, evs, used, rest, -, -, -, rfl, -⟩ |
    ⟨g, evs, used, rest, -, -, -, -, rfl, -⟩ <;> exact ⟨rfl, rfl⟩

/-- A step writes no parameter (R105), and it uses the host's events from the head on. -/
theorem step_keeps_inputs (h : step s = .next t) : t.config = s.config ∧ t.host <:+ s.host := by
  rcases step_cases s with ⟨-, -, hs⟩ | ⟨_, _, -, hh, hs⟩ | ⟨_, _, _, _, -, hh, -, hs⟩ |
    ⟨_, _, _, _, -, hh, -, hs⟩ | ⟨_, _, -, -, hs⟩ | ⟨_, _, _, -, -, hs⟩ | ⟨_, -, hs⟩ <;> rw [hs] at h
  · obtain rfl := Host.Outcome.next.inj h
    exact ⟨rfl, List.suffix_rfl⟩
  · obtain rfl := Host.Outcome.next.inj h
    exact ⟨rfl, hh ▸ List.suffix_cons ..⟩
  · rw [exec_idle (exec_next_idle h)] at h
    obtain ⟨hconfig, hhost⟩ := transact_keeps_inputs h
    exact ⟨hconfig, hhost ▸ hh ▸ List.suffix_cons ..⟩
  · obtain rfl := Host.Outcome.next.inj h
    exact ⟨rfl, hh ▸ List.suffix_cons ..⟩
  · cases h
  · cases h
  · obtain ⟨hconfig, hhost⟩ := transact_keeps_inputs h
    exact ⟨hconfig, hhost ▸ List.suffix_rfl⟩

theorem step_keeps_protocol (hp : HostKeepsProtocol s) (h : step s = .next t) : HostKeepsProtocol t :=
  fun ev hev => hp ev ((step_keeps_inputs h).2.subset hev)

/-! ## When a step comes to a next state -/

theorem next_of_ne {o : Host.Outcome State Fault Refusal} (hf : ∀ r, o ≠ .fault r)
    (hr : ∀ r, o ≠ .refused r) : ∃ t, o = .next t := by
  cases o with
  | next t => exact ⟨t, rfl⟩
  | fault r => exact absurd rfl (hf r)
  | refused r => exact absurd rfl (hr r)

/-- An idle block performs every command (R111). -/
theorem exec_idle_next (hidle : s.inflight = none) (i : Instr) : ∃ t, exec i s = .next t :=
  next_of_ne (exec_ne_fault i s) (exec_idle hidle i ▸ transact_not_refused i _ _ s)

theorem step_idle_next (hidle : s.inflight = none) : ∃ t, step s = .next t := by
  rcases step_cases s with ⟨-, -, hs⟩ | ⟨_, _, -, -, hs⟩ | ⟨_, _, more, i, -, -, -, hs⟩ |
    ⟨_, _, _, _, -, -, -, hs⟩ | ⟨_, _, hf, -, -⟩ | ⟨_, _, _, hf, -, -⟩ | ⟨_, hf, -⟩
  · exact ⟨_, hs⟩
  · exact ⟨_, hs⟩
  · exact hs ▸ exec_idle_next (s := { s with host := more }) hidle i
  · exact ⟨_, hs⟩
  · simp [hidle] at hf
  · simp [hidle] at hf
  · simp [hidle] at hf

theorem step_next (hinv : Inv s) (hp : HostKeepsProtocol s) : ∃ t, step s = .next t := by
  cases hf : s.inflight with
  | none => exact step_idle_next hf
  | some f =>
    rw [step_busy hf hp]
    exact next_of_ne (resume_ne_fault (hinv.2 f hf)) (transact_not_refused f.cmd _ f.temps s)

/-- What holds of a state and makes it step to a state of which it holds again, holds along every run. -/
theorem run_next {P : State → Prop} (hstep : ∀ s, P s → ∃ t, step s = .next t ∧ P t) (k : Nat) :
    ∀ {s : State}, P s → ∃ t, core.run k s = .next t ∧ P t := by
  induction k with
  | zero => exact fun {s} hs => ⟨s, rfl, hs⟩
  | succ k ih =>
    intro s hs
    obtain ⟨u, hu, hPu⟩ := hstep s hs
    rw [run_succ k hu]
    exact ih hPu

/-! ## What the host drives at the block -/

theorem step_idle_reset (hidle : s.inflight = none) (hh : s.host = .reset early :: more) :
    step s = .next { s with host := more } := by
  simp only [step, fetch, hidle, hh, resetBlock]

theorem step_busy_early_reset (hf : s.inflight = some f) (hh : s.host = .reset true :: more) :
    step s = .refused .resetWhileBusy := by
  simp only [step, fetch, hf, hh]

theorem step_busy_early_command (hf : s.inflight = some f) (hh : s.host = .command w true :: more) :
    step s = .refused .commandWhileBusy := by
  simp only [step, fetch, hf, hh]

/-! ## Whether the transport answers -/

/-- With no answer to come, the command in flight waits as it is (R110). -/
theorem resume_silent (hf : s.inflight = some f) (ha : s.answers = []) : resume f s = .next s := by
  rw [resume, transact_silent _ _ _ _ ha]
  simp only [stayBusy, ← hf, ← ha]

/-- Transactions wait only where the answers end or one of them takes time. -/
theorem transact_responds (hlater : .later ∉ s.answers) (hlen : txns.length ≤ s.answers.length)
    (h : transact cmd temps txns s = .next t) : t.inflight = none := by
  rcases transact_next h with ⟨ds, rest, r, -, -, -, rfl⟩ | ⟨pre, x, post, ds, rest, e, -, -, -, rfl⟩ |
    ⟨pre, x, post, ds, wait, rest, rfl, hl, ha, ⟨rfl, -⟩ | rfl, -⟩
  · rfl
  · rfl
  · simp [ha, hl] at hlen
  · simp [ha] at hlater

/-- A command with an answer for each of its transactions responds at once, with one response (R113). -/
theorem exec_responds (hidle : s.inflight = none) (hlater : .later ∉ s.answers)
    (hlen : (txnsOf s.config i).length ≤ s.answers.length) :
    ∃ t, exec i s = .next t ∧ t.inflight = none ∧ ∃ r, t.responses = s.responses ++ [r] := by
  obtain ⟨t, ht⟩ := exec_idle_next hidle i
  have hend : t.inflight = none :=
    transact_responds hlater hlen ((exec_idle hidle i).symm.trans ht)
  obtain ⟨-, hresp⟩ | ⟨f, hf, -⟩ := oneResponsePerCommand i s t ht
  · exact ⟨t, ht, hend, hresp⟩
  · simp [hend] at hf

theorem later_notMem_prompt (answers : List Answer) : .later ∉ prompt answers := by
  simp [prompt]

/-! ## The answers of a device whose registers hold still -/

theorem servedBy_rdtcTxns (m : Byte → Byte) (p : Config.Params) :
    servedBy m (rdtcTxns p)
      = tcArrange p.tcReadOrder (.ok (m p.addrTcLo)) (.ok (m p.addrTcMid)) (.ok (m p.addrTcHi)) :=
  map_tcArrange ..

theorem servedBy_rdcjTxns (m : Byte → Byte) (p : Config.Params) :
    servedBy m (rdcjTxns p) = cjArrange p.cjReadOrder (.ok (m p.addrCjLo)) (.ok (m p.addrCjHi)) :=
  map_cjArrange ..

/-! ## The obligations -/

/-- Settles O44: the invariant and the protocol give a step, and a step keeps both. -/
theorem protocolKeepingRunsNeverStop : Obligations.ProtocolKeepingRunsNeverStop := by
  intro s hinv hp k
  refine run_next (P := fun s => Inv s ∧ HostKeepsProtocol s) (fun s ⟨hinv, hp⟩ => ?_) k ⟨hinv, hp⟩
  obtain ⟨t, ht⟩ := step_next hinv hp
  exact ⟨t, ht, stepKeepsTheInvariant s t hinv ht, step_keeps_protocol hp ht⟩

/-- Settles O23: such a device answers the reads with its bytes in the read order. -/
theorem stableRegistersAreReadTrue : Obligations.StableRegistersAreReadTrue :=
  ⟨fun m s _ hidle ha =>
      ⟨_, rdtc_responds_ok hidle (by rw [ha, servedBy_rdtcTxns]), rfl⟩,
    fun m s _ hidle ha =>
      ⟨_, rdcj_responds_ok hidle (by rw [ha, servedBy_rdcjTxns]), rfl⟩⟩

/-- Settles O35, by what the block finds at the host port. -/
theorem busyBlockRefusesIdleBlockAccepts : Obligations.BusyBlockRefusesIdleBlockAccepts :=
  ⟨fun i _ _ hf => exec_busy hf i, fun _ _ _ _ => step_busy_early_command,
    fun _ _ _ => step_busy_early_reset, fun _ => step_idle_next⟩

/-- Settles O40: the parameters are among the inputs that a step keeps. -/
theorem parametersNeverChange : Obligations.ParametersNeverChange :=
  fun _ _ h => (step_keeps_inputs h).1

/-- Settles O46: a silent transport makes the busy state a fixed point of the step, and a command whose answers
end before its transactions waits at the first that is not answered. -/
theorem silentTransportHangsTheBlock : Obligations.SilentTransportHangsTheBlock := by
  constructor
  · intro s f hf ha hp k
    have hstep : step s = .next s := (step_busy hf hp).trans (resume_silent hf ha)
    obtain ⟨t, hrun, rfl⟩ := run_next (P := (· = s)) (fun _ h => ⟨s, h ▸ hstep, rfl⟩) k rfl
    exact hrun
  · intro i s ds hidle hlt ha
    have hwait := transact_waits (cmd := i) (temps := {}) (s := s) (ds := ds) (wait := []) (rest := [])
      (pre := (txnsOf s.config i).take ds.length) (x := (txnsOf s.config i)[ds.length])
      (post := (txnsOf s.config i).drop (ds.length + 1)) (by rw [List.length_take]; omega)
      (by rw [ha, List.append_nil]) (.inl ⟨rfl, rfl⟩)
    rw [List.getElem_cons_drop, List.take_append_drop, ← exec_idle hidle] at hwait
    exact ⟨_, _, hwait, rfl, rfl, rfl⟩

/-- Settles O47: with the delays left out the command responds at once, with one response, and the delays do
not change that. -/
theorem answeredCommandsRespond : Obligations.AnsweredCommandsRespond := by
  refine ⟨length_txnsOf_le, fun i s hidle hp hlen => ?_⟩
  obtain ⟨t, ht, hend, r, hr⟩ := exec_responds (s := { s with answers := prompt s.answers }) hidle
    (later_notMem_prompt s.answers) hlen
  obtain ⟨u, v, k, hu, hv, hvend, -, hresp, -⟩ := delaysDoNotChangeTheOutcome i s t hidle hp ht hend
  exact ⟨u, v, k, hu, hv, hvend, r, hresp.trans hr⟩

/-- Settles O24: the bytes 0xE0, 0x00, 0x01 are decoded as they come, though the first is of 0x00FFE0 and the
other two of 0x010000. -/
theorem tornReadingOfTheSpec : Obligations.TornReadingOfTheSpec := by
  intro s more hidle horder ha
  have hread := rdtc_responds_ok (lo := 0xE0) (mid := 0x00) (hi := 0x01) (rest := more) hidle
    (by rw [ha, horder]; rfl)
  have htorn : decodeTc 0xE0 0x00 0x01 = 0x00000807 := by decide
  have hvalue : (0x00000807 : Word).toInt = 2055 := by decide
  refine ⟨_, hread, by rw [htorn]; rfl, ?_, by decide, by decide⟩
  rw [tcCelsius_eq_div, hvalue]
  norm_num

/-- Settles O37: the word of a command decodes to it, and the idle block of reset performs it. -/
theorem resetLeavesTheBlockIdle : Obligations.ResetLeavesTheBlockIdle := by
  refine ⟨rfl, fun i early => ?_⟩
  obtain ⟨t, ht⟩ := exec_idle_next (s := State.reset) rfl i
  exact ⟨t, (step_command rfl rfl (decodeOfEncodeIsTheCommand i)).trans ht, ht⟩

/-- Settles O38: a block that is idle already is left so. -/
theorem resetEventSendsNothing : Obligations.ResetEventSendsNothing :=
  fun _ _ _ => step_idle_reset

end Sys2Proof.Proofs
end
